-- ==== Sys2Proof/Word.lean ====
section
/-! DEFINITION. The integer types of the engine (spec 00 R8): every field is unsigned, bit 0 is the least significant bit. -/

namespace Sys2Proof

/-- `u8`: one stream byte. -/
abbrev Byte := BitVec 8

/-- `u16`: a declared length. -/
abbrev Half := BitVec 16

/-- `u32`: a register value, a containerType, a containerFlags. -/
abbrev Word := BitVec 32

end Sys2Proof
end

