-- ==== Sys2Proof/Syntax.lean ====
section
/-! DEFINITION. The instruction set: one constructor of `Instr` per row of spec/opcode_table.json, the PDU its DCMD rows
carry, and the transactions the host puts on the engine's ports (spec 30, 40). -/

namespace Sys2Proof

/-- The 19 commands, in the spec's order (10 R20); the order is no wire value. -/
inductive CommandId where
  | sync | apiRevision | ping | txPacket | rxPacket | longTxPacket | longRxPacket | devicePacket | register | unregister
  | packetfilter | rawmode | queryDevices | queryDsuid | queryAddress | queryBusstate | busChange | busState | restartBus
  deriving DecidableEq, Repr

/-- Every command once, in the order of 10 R20. -/
def CommandId.all : List CommandId :=
  [.sync, .apiRevision, .ping, .txPacket, .rxPacket, .longTxPacket, .longRxPacket, .devicePacket, .register, .unregister,
   .packetfilter, .rawmode, .queryDevices, .queryDsuid, .queryAddress, .queryBusstate, .busChange, .busState, .restartBus]

/-- The PDU under decode (`q` of spec 41): command byte, declared length `raw`, payload (30 R48). With a CRC trailer the
payload stands without the trailer while `len` counts it (43 R125), so `len` and the payload's length are kept apart. -/
structure Pdu where
  cmd : Byte
  len : Half
  payload : List Byte
  deriving DecidableEq, Repr

/-- `Lq = len(q)`: header and payload (41, its header). -/
def Pdu.size (q : Pdu) : Nat := 3 + q.payload.length

/-- The instructions. Format DCMD: one PDU at the head of the reassembly buffer. Format HOST: one port or register operation,
or the engine's own step. -/
inductive Instr where
  | sync (q : Pdu)
  | apiRevision (q : Pdu)
  | ping (q : Pdu)
  | txPacket (q : Pdu)
  | rxPacket (q : Pdu)
  | longTxPacket (q : Pdu)
  | longRxPacket (q : Pdu)
  | devicePacket (q : Pdu)
  | register (q : Pdu)
  | unregister (q : Pdu)
  | packetfilter (q : Pdu)
  | rawmode (q : Pdu)
  | queryDevices (q : Pdu)
  | queryDsuid (q : Pdu)
  | queryAddress (q : Pdu)
  | queryBusstate (q : Pdu)
  | busChange (q : Pdu)
  | busState (q : Pdu)
  | restartBus (q : Pdu)
  | unknown (q : Pdu)
  | corruptHeader (cmd : Byte) (len : Half)
  | push (b : Byte)
  | chunk (bs : List Byte)
  | emit
  | pop
  | streamReset
  | reset
  | rd (off : Byte)
  | wr (off : Byte) (v : Word)
  deriving DecidableEq, Repr

/-- What the host does on the engine's ports (70 R158), as it stands there, before it is decoded: a register access has any
byte offset of the block and any width in bits, since the spec refuses some (10 R25). -/
inductive Transaction where
  | push (b : Byte)
  | chunk (bs : List Byte)
  | pop
  | sreset
  | reset
  | read (off : Byte) (bits : Nat)
  | write (off : Byte) (bits : Nat) (v : Word)
  deriving DecidableEq, Repr

end Sys2Proof
end

