-- ==== Sys2Proof/Config.lean ====
section
/-! DEFINITION. The implementation parameters (spec 00 R6, R7). Every function below `exec` takes a `Params` as an argument;
the machine itself runs with `Config.params`, whose OPEN fields are opaque constants, so nothing can be proved of their
values beyond the constraints the spec gives. -/

namespace Sys2Proof

/-- `CMD_CODE` with the three constraints of 00 R7: injective, PING 0x02 and QUERY_BUSSTATE 0x23, never 0x99. -/
structure CmdCodes where
  code : CommandId → Byte
  injective : ∀ c d, code c = code d → c = d
  ping : code .ping = 0x02
  queryBusstate : code .queryBusstate = 0x23
  not99 : ∀ c, code c ≠ 0x99

/-- `CRC_WIDTH`: 8, 16 or 32 (00 R6). -/
inductive CrcWidth where
  | w8 | w16 | w32
  deriving DecidableEq, Repr, Inhabited

/-- The trailer's length in bytes, `CRC_WIDTH / 8` (43 R124). -/
def CrcWidth.bytes : CrcWidth → Nat
  | .w8 => 1
  | .w16 => 2
  | .w32 => 4

def CrcWidth.bits (w : CrcWidth) : Nat := 8 * w.bytes

/-- The CRC checker's parameters (43 R121). -/
structure CrcParams where
  width : CrcWidth
  poly : BitVec width.bits
  init : BitVec width.bits
  xorout : BitVec width.bits
  refin : Bool
  refout : Bool
  deriving Inhabited

/-- `CRC_ATTACH` (00 R6). -/
inductive CrcAttach where
  | none | trailer
  deriving DecidableEq, Repr

/-- `LONG_DATA_MAX`: 8599 by decision, "a model may set 8600" (00 R6, 92 D14). -/
inductive LongMax where
  | m8599 | m8600
  deriving DecidableEq, Repr

def LongMax.toNat : LongMax → Nat
  | .m8599 => 8599
  | .m8600 => 8600

/-- The parameters of 00 R6. `queueRoom` is `OUT_DEPTH - 1` and `leaveBit` the place of `LEAVE_MASK`'s one bit, so that every
value of `Params` meets the table's constraints. The five container enumerants are read by no decode rule (30 R61). -/
structure Params where
  codes : CmdCodes
  queueRoom : Fin 65535
  longMax : LongMax
  leaveBit : Fin 8
  ctypeRequest : Word
  ctypeResponse : Word
  ctypeEvent : Word
  cflagNone : Word
  cflagBroadcast : Word
  crcAttach : CrcAttach
  crc : CrcParams

/-- `OUT_DEPTH`, 1 to 65535 (00 R6). -/
def Params.outDepth (P : Params) : Nat := P.queueRoom.val + 1

/-- `LONG_DATA_MAX` (00 R6). -/
def Params.longDataMax (P : Params) : Nat := P.longMax.toNat

/-- `LEAVE_MASK`, exactly one bit set (00 R6). -/
def Params.leaveMask (P : Params) : Byte := 1#8 <<< P.leaveBit.val

/-- How many bytes of a PDU are its CRC trailer (43 R123, R124). -/
def Params.trailerBytes (P : Params) : Nat :=
  match P.crcAttach with
  | .none => 0
  | .trailer => P.crc.width.bytes

namespace Config

/-- `PDU_HDR` (00 R6). -/
abbrev pduHdr : Nat := 3

/-- `BUF_CAP` and `MAX_PDU` (00 R6, 40 R72). -/
abbrev bufCap : Nat := 65535

/-- `CONTAINER_DATA_MAX` (00 R6). -/
abbrev containerDataMax : Nat := 127

/-- One admissible `CMD_CODE`. It shows that the constraints of 00 R7 can be met and is used for nothing else: the machine's
map is `cmdCodes`, of which nothing but these constraints can be proved (log entry 1). -/
def someCmdCodes : CmdCodes where
  code
    | .sync => 0x40 | .apiRevision => 0x41 | .ping => 0x02 | .txPacket => 0x43 | .rxPacket => 0x44
    | .longTxPacket => 0x45 | .longRxPacket => 0x46 | .devicePacket => 0x47 | .register => 0x48 | .unregister => 0x49
    | .packetfilter => 0x4A | .rawmode => 0x4B | .queryDevices => 0x4C | .queryDsuid => 0x4D | .queryAddress => 0x4E
    | .queryBusstate => 0x23 | .busChange => 0x50 | .busState => 0x51 | .restartBus => 0x52
  injective := by intro c d; cases c <;> cases d <;> decide
  ping := rfl
  queryBusstate := rfl
  not99 := by intro c; cases c <;> decide

/-- An admissible `CMD_CODE`, free among all of them (OPEN, 92 D7). -/
opaque freeCmdCodes [Inhabited CmdCodes] : CmdCodes

/-- `OUT_DEPTH - 1` (OPEN, 92 D5). -/
opaque queueRoom : Fin 65535

/-- The bit of `LEAVE_MASK` (OPEN, 92 D10). -/
opaque leaveBit : Fin 8

/-- `CTYPE_REQUEST` (OPEN, 92 D8). -/
opaque ctypeRequest : Word

/-- `CTYPE_RESPONSE` (OPEN, 92 D8). -/
opaque ctypeResponse : Word

/-- `CTYPE_EVENT` (OPEN, 92 D8). -/
opaque ctypeEvent : Word

/-- `CFLAG_NONE` (OPEN, 92 D8). -/
opaque cflagNone : Word

/-- `CFLAG_BROADCAST` (OPEN, 92 D8). -/
opaque cflagBroadcast : Word

/-- `CRC_WIDTH`, `CRC_POLY`, `CRC_INIT`, `CRC_XOROUT`, `CRC_REFIN`, `CRC_REFOUT` (OPEN, 92 D19). -/
opaque crc : CrcParams

/-- The machine's `CMD_CODE`. -/
def cmdCodes : CmdCodes := @freeCmdCodes ⟨someCmdCodes⟩

/-- The machine's parameters: the decided ones at the spec's value (`LONG_DATA_MAX` 8599, `CRC_ATTACH` NONE; 92 D14, D19), the
OPEN ones free. Fixed for a run (70 R146). -/
def params : Params where
  codes := cmdCodes
  queueRoom := queueRoom
  longMax := .m8599
  leaveBit := leaveBit
  ctypeRequest := ctypeRequest
  ctypeResponse := ctypeResponse
  ctypeEvent := ctypeEvent
  cflagNone := cflagNone
  cflagBroadcast := cflagBroadcast
  crcAttach := .none
  crc := crc

end Config

end Sys2Proof
end

