-- ==== Sys2Proof/Machine/Bytes.lean ====
section
/-! DEFINITION. Byte sequences and byte order (spec 00 R9, 20 R36): indexing, half-open ranges, little-endian integers. -/

namespace Sys2Proof

/-- `s[i]`; 0 past the end, where no rule reads (log entry 6). -/
def byteAt (s : List Byte) (i : Nat) : Byte := s.getD i 0

/-- `s[a..a+n)`. -/
def slice (s : List Byte) (a n : Nat) : List Byte := (s.drop a).take n

/-- The unsigned number whose little-endian bytes are `s` (00 R9, 43 R125). -/
def leNat : List Byte → Nat
  | [] => 0
  | b :: s => b.toNat + 256 * leNat s

/-- The low `n` bytes of `v`, least significant first (42 R116). -/
def leBytes : Nat → Nat → List Byte
  | 0, _ => []
  | n + 1, v => BitVec.ofNat 8 v :: leBytes n (v / 256)

/-- `le16(s, i)` (00 R9). -/
def le16 (s : List Byte) (i : Nat) : Half := BitVec.ofNat 16 (leNat [byteAt s i, byteAt s (i + 1)])

/-- `le32(s, i)` (00 R9). -/
def le32 (s : List Byte) (i : Nat) : Word :=
  BitVec.ofNat 32 (leNat [byteAt s i, byteAt s (i + 1), byteAt s (i + 2), byteAt s (i + 3)])

/-- The bytes of a PDU in stream order: command, length little-endian, payload (30 R48). -/
def pduBytes (cmd : Byte) (len : Half) (payload : List Byte) : List Byte :=
  cmd :: (leBytes 2 len.toNat ++ payload)

end Sys2Proof
end

