-- ==== Sys2Proof/Machine/Crc.lean ====
section
/-! DEFINITION. The CRC checker (spec 43 R121 to R125): the parameterised algorithm and the check of a PDU's trailer. -/

namespace Sys2Proof

/-- Shift the low `n` bits of `v` into `acc`, least significant first. -/
def reflectLoop : Nat → Nat → Nat → Nat
  | 0, _, acc => acc
  | n + 1, v, acc => reflectLoop n (v / 2) (2 * acc + v % 2)

/-- `reflect(v, n)`: the low `n` bits of `v` in reverse order (43 R122). -/
def reflect {n : Nat} (v : BitVec n) : BitVec n := BitVec.ofNat n (reflectLoop n v.toNat 0)

/-- One of the eight inner steps of 43 R122. -/
def crcShift {w : Nat} (poly reg : BitVec w) : BitVec w :=
  if reg.msb then (reg <<< 1) ^^^ poly else reg <<< 1

/-- `n` inner steps. -/
def crcShifts {w : Nat} (poly : BitVec w) : Nat → BitVec w → BitVec w
  | 0, reg => reg
  | n + 1, reg => crcShifts poly n (crcShift poly reg)

/-- The loop body of 43 R122 for one byte. -/
def crcByte (C : CrcParams) (reg : BitVec C.width.bits) (b : Byte) : BitVec C.width.bits :=
  let b := if C.refin then reflect b else b
  crcShifts C.poly 8 (reg ^^^ ((b.setWidth C.width.bits) <<< (C.width.bits - 8)))

/-- `crc(bs)` (43 R122). -/
def crc (C : CrcParams) (bs : List Byte) : BitVec C.width.bits :=
  let reg := bs.foldl (crcByte C) C.init
  (if C.refout then reflect reg else reg) ^^^ C.xorout

/-- The trailer of a PDU whose other bytes are `bs`: their CRC, little-endian (43 R124). -/
def crcTrailer (C : CrcParams) (bs : List Byte) : List Byte := leBytes C.width.bytes (crc C bs).toNat

/-- What the CRC stage finds: no room for a trailer, a trailer that disagrees, or a good PDU and its body (43 R125). -/
inductive TrailerCheck where
  | short | mismatch | good (body : List Byte)
  deriving DecidableEq, Repr

/-- The check of `crc_stage(p)` for a PDU of declared length `L` (43 R125). -/
def checkTrailer (C : CrcParams) (p : List Byte) (L : Nat) : TrailerCheck :=
  let n := C.width.bytes
  if L - 3 < n then .short
  else if (crc C (p.take (L - n))).toNat ≠ leNat (slice p (L - n) n) then .mismatch
  else .good (p.take (L - n))

end Sys2Proof
end

