-- ==== Sys2Proof/WellFormed.lean ====
section
/-! DEFINITION. Which terms of `Instr` stand for something the hardware can meet: a PDU whose command byte is its row's, whose
length field is its length (spec 30 R47, R48, 40 R73, 43 R124), an aligned register offset (10 R25). -/

namespace Sys2Proof

/-- The declared length counts header, payload and trailer. -/
def Pdu.framed (P : Params) (q : Pdu) : Bool := q.len.toNat == q.size + P.trailerBytes

/-- A framed PDU of command `c`. -/
def Pdu.isFor (P : Params) (c : CommandId) (q : Pdu) : Bool := q.cmd == P.codes.code c && q.framed P

/-- An offset of a 32-bit register: bits 1:0 are 0 (opcode table rows RD, WR). -/
def alignedOffset (off : Byte) : Bool := off.toNat % 4 == 0

/-- Well-formedness under the parameters `P`. -/
def wellFormed (P : Params) : Instr → Bool
  | .sync q => q.isFor P .sync
  | .apiRevision q => q.isFor P .apiRevision
  | .ping q => q.isFor P .ping
  | .txPacket q => q.isFor P .txPacket
  | .rxPacket q => q.isFor P .rxPacket
  | .longTxPacket q => q.isFor P .longTxPacket
  | .longRxPacket q => q.isFor P .longRxPacket
  | .devicePacket q => q.isFor P .devicePacket
  | .register q => q.isFor P .register
  | .unregister q => q.isFor P .unregister
  | .packetfilter q => q.isFor P .packetfilter
  | .rawmode q => q.isFor P .rawmode
  | .queryDevices q => q.isFor P .queryDevices
  | .queryDsuid q => q.isFor P .queryDsuid
  | .queryAddress q => q.isFor P .queryAddress
  | .queryBusstate q => q.isFor P .queryBusstate
  | .busChange q => q.isFor P .busChange
  | .busState q => q.isFor P .busState
  | .restartBus q => q.isFor P .restartBus
  | .unknown q => CommandId.all.all (fun c => P.codes.code c != q.cmd) && q.framed P
  | .corruptHeader _ len => decide (len.toNat < 3)
  | .push _ => true
  | .chunk _ => true
  | .emit => true
  | .pop => true
  | .streamReset => true
  | .reset => true
  | .rd off => alignedOffset off
  | .wr off _ => alignedOffset off

/-- `wellFormed` as a proposition. -/
abbrev WellFormed (P : Params) (i : Instr) : Prop := wellFormed P i = true

end Sys2Proof
end

