-- ==== Sys2Proof/Decode.lean ====
section
/-! DEFINITION. The decoder and the encoder: PDU bytes to a DCMD instruction (spec 10 R18, 30 R46 to R50, R64, 40 R73, 41 R81,
43 R125), a host transaction to a HOST instruction (10 R25, 40 R68 to R78). Total; what it refuses it names. -/

namespace Sys2Proof

/-- `hdr_len(buf)`, read only when three bytes are there (10 R18). -/
def hdrLen (buf : List Byte) : Nat := (le16 buf 1).toNat

/-- `pdu_size(buf) = max(3, hdr_len(buf))` (10 R18). -/
def pduSize (buf : List Byte) : Nat := max 3 (hdrLen buf)

/-- `complete(buf)` (10 R18). -/
def complete (buf : List Byte) : Bool := decide (3 ≤ buf.length) && decide (pduSize buf ≤ buf.length)

/-- A PDU from its bytes (30 R48). -/
def pduOfBytes (p : List Byte) : Pdu := { cmd := byteAt p 0, len := le16 p 1, payload := p.drop 3 }

/-- The bytes of `q` (30 R48). -/
def Pdu.bytes (q : Pdu) : List Byte := pduBytes q.cmd q.len q.payload

/-- `lookup(b)` of the dispatch table (41 R81). The three bytes the source fixes (00 R7) come first, so that they can be
evaluated although the map is free; `lookup_eq_some_iff` in Laws/Decode.lean says that this changes nothing. -/
def lookup (P : Params) (b : Byte) : Option CommandId :=
  if b = 0x02 then some .ping
  else if b = 0x23 then some .queryBusstate
  else if b = 0x99 then none
  else CommandId.all.find? (fun c => P.codes.code c == b)

/-- The constructor of a command's row (41 R81). -/
def commandInstr : CommandId → Pdu → Instr
  | .sync => .sync
  | .apiRevision => .apiRevision
  | .ping => .ping
  | .txPacket => .txPacket
  | .rxPacket => .rxPacket
  | .longTxPacket => .longTxPacket
  | .longRxPacket => .longRxPacket
  | .devicePacket => .devicePacket
  | .register => .register
  | .unregister => .unregister
  | .packetfilter => .packetfilter
  | .rawmode => .rawmode
  | .queryDevices => .queryDevices
  | .queryDsuid => .queryDsuid
  | .queryAddress => .queryAddress
  | .queryBusstate => .queryBusstate
  | .busChange => .busChange
  | .busState => .busState
  | .restartBus => .restartBus

/-- Byte 0 alone selects the row (30 R64). -/
def selectCommand (P : Params) (q : Pdu) : Instr :=
  match lookup P q.cmd with
  | none => .unknown q
  | some c => commandInstr c q

/-- Why PDU bytes are no instruction. The last two arise with `CRC_ATTACH = TRAILER` only (43 R125): the PDU then reaches no
command row, and EMIT's own meaning gives its record. -/
inductive PduReject where
  | incomplete | trailerShort | crcMismatch
  deriving DecidableEq, Repr

/-- The row of one whole PDU `p` (30 R64, 40 R73, 41 R85). -/
def decodeFrame (P : Params) (p : List Byte) : Except PduReject Instr :=
  if (le16 p 1).toNat < 3 then .ok (.corruptHeader (byteAt p 0) (le16 p 1))
  else
    match P.crcAttach with
    | .none => .ok (selectCommand P (pduOfBytes p))
    | .trailer =>
      match checkTrailer P.crc p (le16 p 1).toNat with
      | .short => .error .trailerShort
      | .mismatch => .error .crcMismatch
      | .good body => .ok (selectCommand P (pduOfBytes body))

/-- Read one instruction off a byte stream, with the rest of the stream (30 R47). -/
def decodePdu (P : Params) (bytes : List Byte) : Except PduReject (Instr × List Byte) :=
  if complete bytes then
    match decodeFrame P (bytes.take (pduSize bytes)) with
    | .ok i => .ok (i, bytes.drop (pduSize bytes))
    | .error e => .error e
  else .error .incomplete

/-- Why a register access is refused: not 32 bits wide, or not aligned (10 R25). -/
inductive TransactionReject where
  | width (bits : Nat)
  | unaligned (off : Byte)
  deriving DecidableEq, Repr

/-- What a register access must be: 32 bits wide and aligned (10 R25). -/
def checkAccess (off : Byte) (bits : Nat) (i : Instr) : Except TransactionReject Instr :=
  if bits ≠ 32 then .error (.width bits)
  else if alignedOffset off then .ok i
  else .error (.unaligned off)

/-- The instruction a host transaction stands for (40 R68 to R78, 70 R145). -/
def decodeTransaction : Transaction → Except TransactionReject Instr
  | .push b => .ok (.push b)
  | .chunk bs => .ok (.chunk bs)
  | .pop => .ok .pop
  | .sreset => .ok .streamReset
  | .reset => .ok .reset
  | .read off bits => checkAccess off bits (.rd off)
  | .write off bits v => checkAccess off bits (.wr off v)

/-- The PDU an instruction of a command row or UNKNOWN carries. -/
def Instr.pdu? : Instr → Option Pdu
  | .sync q | .apiRevision q | .ping q | .txPacket q | .rxPacket q | .longTxPacket q | .longRxPacket q | .devicePacket q
  | .register q | .unregister q | .packetfilter q | .rawmode q | .queryDevices q | .queryDsuid q | .queryAddress q
  | .queryBusstate q | .busChange q | .busState q | .restartBus q | .unknown q => some q
  | .corruptHeader _ _ | .push _ | .chunk _ | .emit | .pop | .streamReset | .reset | .rd _ | .wr _ _ => none

/-- The CRC trailer of bytes, under the parameters (43 R123, R124). -/
def trailerOf (P : Params) (bs : List Byte) : List Byte :=
  match P.crcAttach with
  | .none => []
  | .trailer => crcTrailer P.crc bs

/-- A PDU's bytes with its trailer, as they stand in the stream (30 R48, 43 R124). -/
def framedBytes (P : Params) (q : Pdu) : List Byte := q.bytes ++ trailerOf P q.bytes

/-- The stream bytes of a DCMD instruction (30 R48, R66; 43 R124); none for the HOST rows, which are transactions. -/
def encodePdu (P : Params) : Instr → List Byte
  | .sync q | .apiRevision q | .ping q | .txPacket q | .rxPacket q | .longTxPacket q | .longRxPacket q | .devicePacket q
  | .register q | .unregister q | .packetfilter q | .rawmode q | .queryDevices q | .queryDsuid q | .queryAddress q
  | .queryBusstate q | .busChange q | .busState q | .restartBus q | .unknown q => framedBytes P q
  | .corruptHeader cmd len => pduBytes cmd len []
  | .push _ | .chunk _ | .emit | .pop | .streamReset | .reset | .rd _ | .wr _ _ => []

/-- The transaction of a HOST instruction (30 R66); none for the DCMD rows and for EMIT, which no host performs. -/
def encodeTransaction : Instr → Option Transaction
  | .push b => some (.push b)
  | .chunk bs => some (.chunk bs)
  | .pop => some .pop
  | .streamReset => some .sreset
  | .reset => some .reset
  | .rd off => some (.read off 32)
  | .wr off v => some (.write off 32 v)
  | .sync _ | .apiRevision _ | .ping _ | .txPacket _ | .rxPacket _ | .longTxPacket _ | .longRxPacket _ | .devicePacket _
  | .register _ | .unregister _ | .packetfilter _ | .rawmode _ | .queryDevices _ | .queryDsuid _ | .queryAddress _
  | .queryBusstate _ | .busChange _ | .busState _ | .restartBus _ | .unknown _ | .corruptHeader _ _ | .emit => none

/-- The PDU bytes of a table word: bit 0 is the least significant bit of PDU byte 0. A word of at most 8 bits is a command
byte alone, as the table gives its rows; its header is completed with the shortest legal length, 3 (log entry 9). Otherwise
the length field is the word's, and bytes past the word are 0. -/
def tableBytes (nbits w : Nat) : List Byte :=
  if nbits ≤ 8 then [BitVec.ofNat 8 w, 3, 0]
  else
    let header := leBytes 3 (w % 2 ^ nbits)
    leBytes (pduSize header) (w % 2 ^ nbits)

/-- The instruction the decoder reads from a table word (a name the host fixes). -/
def decodeTableWord (nbits w : Nat) : Option Instr :=
  match decodePdu Config.params (tableBytes nbits w) with
  | .ok (i, _) => some i
  | .error _ => none

end Sys2Proof
end

