-- ==== Sys2Proof/Machine/State.lean ====
section
/-! DEFINITION. The state of the engine as plain data (spec 10), the record it makes of a PDU (10 R20 to R24), the host's side,
and why a step can stop. -/

namespace Sys2Proof.Machine

/-- `status` (10 R23). Codes 5, 6 and 7 are reserved and no constructor stands for them. -/
inductive Status where
  | ok | unknown | truncated | corruptLength | crcError
  deriving DecidableEq, Repr

/-- The 3-bit code of a status (10 R23). -/
def Status.code : Status → BitVec 3
  | .ok => 0
  | .unknown => 1
  | .truncated => 2
  | .corruptLength => 3
  | .crcError => 4

/-- `warn`, a 2-bit set (10 R24): bit 0 INVALID_FIELD, bit 1 PARTIAL_ENTRY. -/
abbrev Warn := BitVec 2

/-- A record's `command`: a CommandId, or Unknown(u8) (10 R20, R21). -/
inductive Command where
  | known (c : CommandId)
  | unknown (b : Byte)
  deriving DecidableEq, Repr

/-- `ContainerHdr` (10 R22): `dst` and `src` are 17-byte dSUIDs in wire order. -/
structure ContainerHdr where
  dst : List Byte
  src : List Byte
  ctype : Word
  cflags : Word
  length : Byte
  tid : Byte
  deriving DecidableEq, Repr

/-- `LongHdr` (10 R22), without `cflags` (90 C5). -/
structure LongHdr where
  dst : List Byte
  src : List Byte
  ctype : Word
  length : Half
  tid : Byte
  deriving DecidableEq, Repr

/-- `Fields` (10 R22). -/
inductive Fields where
  | empty
  | revision (revision : Byte)
  | filterFlags (flags : Byte)
  | restartStatus (status : Byte)
  | busStateValue (state : Byte)
  | dsid (id : List Byte)
  | devices (ids : List (List Byte))
  | containerHdr (hdr : ContainerHdr)
  | longHdr (hdr : LongHdr)
  | busChange (hdr : ContainerHdr) (flagByte : Byte) (leave : Bool)
  | busStateEvent (hdr : ContainerHdr) (state : Byte)
  deriving DecidableEq, Repr

/-- The decoded output for one PDU (10 R21). -/
structure Record where
  status : Status
  warn : Warn
  cmdByte : Byte
  command : Command
  rawLength : Half
  fields : Option Fields
  nestedPayload : Option (List Byte)
  deriving DecidableEq, Repr

/-- Who moves at a coming step (log entry 3): the engine (EMIT), the host with the next of its pending operations, or the host
with an operation on one of its ports ahead of the pending ones (log entry 18), which joins them when it has to wait. -/
inductive Turn where
  | engine
  | host
  | port (t : Transaction)
  deriving DecidableEq, Repr

/-- The machine. `buf` and `outq` are the engine's whole state (10 R15); the registers are functions of them (10 R25 to R31).
The other four fields are the model's own: what the host still has to do, in which order the agents move, and what the host
has got back (log entries 3, 4). -/
structure State where
  /-- The reassembly buffer (10 R17). -/
  buf : List Byte
  /-- The output queue, head first (10 R19). -/
  outq : List Record
  /-- The host's operations not yet performed, the waiting ones among them, first to perform first. -/
  hostOps : List Transaction
  /-- The agents of the coming steps; when it is empty, EMIT moves whenever it is enabled, else the host. -/
  turns : List Turn
  /-- The records popped, first popped first (70 R157). -/
  popped : List Record
  /-- The values read from registers, first read first (40 R77). -/
  reads : List Word
  deriving DecidableEq, Repr

/-- No behaviour of the engine is a fault (93, its opening; 60 R129): there is no constructor, so no step can answer one. -/
inductive Fault where
  deriving DecidableEq, Repr

/-- Why a step gives no next state. -/
inductive Refusal where
  /-- Raised by an arm of `exec` for an instruction without a meaning; no arm is left that raises it. Safe. -/
  | notModelled (mnemonic : String)
  /-- Raised by a step whose host transaction is a register access of another width than 32 bits (10 R25, 93 I12). Safe: the
  model stops where the spec gives no behaviour. -/
  | csrWidth (bits : Nat)
  /-- Raised by a step or by RD and WR for a register access at an offset that is not a multiple of 4 (10 R25, 93 I12). Safe:
  the model stops where the spec gives no behaviour. -/
  | csrUnaligned (off : Byte)
  deriving DecidableEq, Repr

/-- The state after RESET (70 R144), with nothing yet on the host's side. -/
def State.reset : State :=
  { buf := [], outq := [], hostOps := [], turns := [], popped := [], reads := [] }

def State.withBuf (s : State) (v : List Byte) : State := { s with buf := v }

def State.withOutq (s : State) (v : List Record) : State := { s with outq := v }

def State.withHostOps (s : State) (v : List Transaction) : State := { s with hostOps := v }

def State.withTurns (s : State) (v : List Turn) : State := { s with turns := v }

def State.withPopped (s : State) (v : List Record) : State := { s with popped := v }

def State.withReads (s : State) (v : List Word) : State := { s with reads := v }

end Sys2Proof.Machine
end

