-- ==== Sys2Proof/Machine/Flags.lean ====
section
/-! DEFINITION. Flags: the warning bits of a record (spec 10 R24, 60 R133) and the registers, each a function of `buf` and
`outq` (10 R25 to R31). -/

namespace Sys2Proof.Machine

/-- `warn` at the start of a decode (41 R85). -/
def noWarn : Warn := 0

/-- INVALID_FIELD, bit 0 (10 R24). -/
def invalidField : Warn := 1

/-- PARTIAL_ENTRY, bit 1 (10 R24). -/
def partialEntry : Warn := 2

/-- BusState, values 1 to 5 (30 R60). -/
inductive BusState where
  | isolated | join | connected | active | disconnected
  deriving DecidableEq, Repr

/-- The BusState of a byte; none outside 1 to 5 (30 R60). -/
def busStateOf (b : Byte) : Option BusState :=
  match b.toNat with
  | 1 => some .isolated
  | 2 => some .join
  | 3 => some .connected
  | 4 => some .active
  | 5 => some .disconnected
  | _ => none

/-- The warning of a BusState byte (60 R133). -/
def busStateWarn (b : Byte) : Warn := if (busStateOf b).isNone then invalidField else noWarn

/-- The warning of a Container's `length` (42 R105, 60 R133). -/
def containerWarn (h : ContainerHdr) : Warn :=
  if Config.containerDataMax < h.length.toNat then invalidField else noWarn

/-- The warning of a LongPacket's `length` (42 R109, 60 R133). -/
def longWarn (P : Params) (h : LongHdr) : Warn := if P.longDataMax < h.length.toNat then invalidField else noWarn

/-- STATUS.IN_READY: a PUSH is accepted (10 R27). -/
def inReady (s : State) : Bool := !complete s.buf

/-- STATUS.OUT_VALID: a POP is possible (10 R27). -/
def outValid (s : State) : Bool := decide (0 < s.outq.length)

/-- STATUS.OUT_FULL (10 R27). -/
def outFull (P : Params) (s : State) : Bool := decide (s.outq.length = P.outDepth)

/-- STATUS.PDU_PENDING: a complete PDU waits (10 R27). -/
def pduPending (s : State) : Bool := complete s.buf

/-- A register bit. -/
def flagBit (b : Bool) (i : Nat) : Word := if b then 1#32 <<< i else 0

/-- STATUS (10 R27). -/
def statusReg (P : Params) (s : State) : Word :=
  flagBit (inReady s) 0 ||| flagBit (outValid s) 1 ||| flagBit (outFull P s) 2 ||| flagBit (pduPending s) 3

/-- BUF_LEVEL: bits 16:0 are `len(buf)`, the others 0 (10 R28). -/
def bufLevelReg (s : State) : Word := (BitVec.ofNat 17 s.buf.length).setWidth 32

/-- OUT_LEVEL: bits 15:0 are `len(outq)`, the others 0 (10 R29). -/
def outLevelReg (s : State) : Word := (BitVec.ofNat 16 s.outq.length).setWidth 32

/-- `csr[off]` at an aligned offset: CTRL, IN_DATA and the reserved offsets read 0 (10 R25 to R31). -/
def csrRead (P : Params) (s : State) (off : Byte) : Word :=
  if off = 0x04 then statusReg P s
  else if off = 0x08 then bufLevelReg s
  else if off = 0x0C then outLevelReg s
  else 0

end Sys2Proof.Machine
end

