-- ==== Sys2Proof/Machine/Ops.lean ====
section
/-! DEFINITION. The operations the meanings share: append to and empty the buffer, queue and take a record, and how a condition
met in a decode is reported. The engine has no traps (spec 60 R129, R138): "entry" into a condition is the record it writes,
and there is no return (60 R139). -/

namespace Sys2Proof.Machine

/-- What a step or a meaning answers. -/
abbrev Result := Host.Outcome State Fault Refusal

/-- There is room for a record (40 R71). -/
def hasRoom (P : Params) (s : State) : Bool := decide (s.outq.length < P.outDepth)

/-- EMIT is enabled (40 R71). -/
def emitEnabled (P : Params) (s : State) : Bool := complete s.buf && hasRoom P s

/-- Take `n` bytes off the buffer's head and queue `r`: the end of every EMIT (40 R71). With no room EMIT waits, and nothing
changes. -/
def emitRecord (P : Params) (n : Nat) (r : Record) (s : State) : Result :=
  if hasRoom P s then .next ((s.withBuf (s.buf.drop n)).withOutq (s.outq ++ [r])) else .next s

/-- PUSH one byte (40 R68); while a complete PDU is buffered it has no step (70 R150). -/
def pushByte (b : Byte) (s : State) : Result :=
  if complete s.buf then .next s else .next (s.withBuf (s.buf ++ [b]))

/-- Hand the head record to the host (40 R75); with none there is no step (70 R151). -/
def popRecord (s : State) : Result :=
  match s.outq with
  | [] => .next s
  | r :: rest => .next ((s.withOutq rest).withPopped (s.popped ++ [r]))

/-- STREAM_RESET (40 R76). -/
def clearStream (s : State) : State := s.withBuf []

/-- RESET (70 R145): the host's side is no state of the engine and stays. -/
def clearEngine (s : State) : State := (s.withBuf []).withOutq []

/-- `ok(q, c, fields, nested)` (41 R83). -/
def okRecord (c : CommandId) (q : Pdu) (w : Warn) (f : Fields) (nested : Option (List Byte)) : Record :=
  { status := .ok, warn := w, cmdByte := q.cmd, command := .known c, rawLength := q.len, fields := some f,
    nestedPayload := nested }

/-- The record of an unknown command (41 R84). -/
def unknownRecord (q : Pdu) : Record :=
  { status := .unknown, warn := noWarn, cmdByte := q.cmd, command := .unknown q.cmd, rawLength := q.len, fields := none,
    nestedPayload := some q.payload }

/-- `truncated_record(q, raw, warn)`: what `raise Truncated` ends in (60 R132). -/
def truncatedRecord (q : Pdu) (w : Warn) : Record :=
  { status := .truncated, warn := w, cmdByte := q.cmd, command := .unknown q.cmd, rawLength := q.len, fields := none,
    nestedPayload := some q.payload }

/-- `corrupt_record(p)` (40 R73). -/
def corruptRecord (cmd : Byte) (len : Half) : Record :=
  { status := .corruptLength, warn := noWarn, cmdByte := cmd, command := .unknown cmd, rawLength := len, fields := none,
    nestedPayload := some [] }

/-- The record of a CRC mismatch: the payload with its trailer (43 R125). -/
def crcErrorRecord (q : Pdu) : Record :=
  { status := .crcError, warn := noWarn, cmdByte := q.cmd, command := .unknown q.cmd, rawLength := q.len, fields := none,
    nestedPayload := some q.payload }

/-- How the rule of a command ends: it returns, or a read raises Truncated; either way with the warnings so far (41 R85). -/
inductive Decoded where
  | done (w : Warn) (f : Fields) (nested : Option (List Byte))
  | raised (w : Warn)
  deriving DecidableEq, Repr

/-- The record of a command's decode (41 R85). -/
def decodedRecord (c : CommandId) (q : Pdu) : Decoded → Record
  | .done w f nested => okRecord c q w f nested
  | .raised w => truncatedRecord q w

/-- What the engine fetches: the instruction whose bytes stand at the head of the buffer (10 R16, 40 R71). -/
def fetch (P : Params) (s : State) : Except PduReject Instr :=
  match decodePdu P s.buf with
  | .ok (i, _) => .ok i
  | .error e => .error e

/-- The refusal of a register access the spec gives no meaning (10 R25, 60 R134). -/
def refuseAccess : TransactionReject → Refusal
  | .width bits => .csrWidth bits
  | .unaligned off => .csrUnaligned off

/-- The enabling condition of each operation (40 R68 to R78, 70 R145). A DCMD row runs as EMIT, and a write to IN_DATA as a
PUSH. -/
def enabled (P : Params) (s : State) : Instr → Bool
  | .push _ => inReady s
  | .chunk bs => bs.isEmpty || inReady s
  | .pop => outValid s
  | .wr off _ => off != 0x10 || inReady s
  | .rd _ | .streamReset | .reset => true
  | .sync _ | .apiRevision _ | .ping _ | .txPacket _ | .rxPacket _ | .longTxPacket _ | .longRxPacket _ | .devicePacket _
  | .register _ | .unregister _ | .packetfilter _ | .rawmode _ | .queryDevices _ | .queryDsuid _ | .queryAddress _
  | .queryBusstate _ | .busChange _ | .busState _ | .restartBus _ | .unknown _ | .corruptHeader _ _ | .emit => emitEnabled P s

/-- Put the instruction of a table word where the next step fetches it (log entry 9): its bytes in the buffer, the engine's
turn first, and room for its record. -/
def placeWord (s : State) (nbits w : Nat) : State :=
  ((s.withBuf (tableBytes nbits w)).withTurns (.engine :: s.turns)).withOutq
    (if hasRoom Config.params s then s.outq else [])

end Sys2Proof.Machine
end

