-- ==== Sys2Proof/Machine/Control.lean ====
section
/-! DEFINITION. Resets and register accesses: STREAM_RESET (spec 40 R76), RESET (70 R145), RD (40 R77), WR (40 R78). -/

namespace Sys2Proof.Machine

/-- STREAM_RESET (40 R76): the queued records stay. -/
def execStreamReset (s : State) : Result := .next (clearStream s)

/-- RESET (70 R145). -/
def execReset (s : State) : Result := .next (clearEngine s)

/-- RD (40 R77): the host gets the register's value, and nothing else changes. -/
def execRd (off : Byte) (s : State) : Result :=
  if alignedOffset off then .next (s.withReads (s.reads ++ [csrRead Config.params s off]))
  else .refused (.csrUnaligned off)

/-- A write to CTRL: SOFT_RESET subsumes STREAM_RESET, the other bits are ignored (10 R26). -/
def writeCtrl (v : Word) (s : State) : State :=
  if v.getLsbD 1 then clearEngine s
  else if v.getLsbD 0 then clearStream s
  else s

/-- WR (40 R78): CTRL, IN_DATA, and nothing for the read-only and reserved offsets. -/
def execWr (off : Byte) (v : Word) (s : State) : Result :=
  if alignedOffset off then
    if off = 0x00 then .next (writeCtrl v s)
    else if off = 0x10 then pushByte (v.setWidth 8) s
    else .next s
  else .refused (.csrUnaligned off)

end Sys2Proof.Machine
end

