-- ==== Sys2Proof/Machine/Operands.lean ====
section
/-! DEFINITION. The operand forms of the DCMD rows (spec 30 R51 to R59, 42): every read goes through `memRead`, and a read that
passes a bound answers none, which is `raise Truncated` (00 R10). Offsets are PDU offsets. -/

namespace Sys2Proof.Machine

/-- `MemRead(off, n)` (00 R10). -/
def memRead (q : Pdu) (off n : Nat) : Option (List Byte) :=
  if off + n ≤ q.size then some (slice q.bytes off n) else none

/-- One byte of `MemRead(off, 1)`. -/
def memByte (q : Pdu) (off : Nat) : Option Byte := (memRead q off 1).map (fun b => byteAt b 0)

/-- The request form, `Lq = 3` (41 R82). -/
def isRequest (q : Pdu) : Bool := q.size == Config.pduHdr

/-- The Container header in its 44 bytes (30 R52). -/
def containerFields (b : List Byte) : ContainerHdr :=
  { dst := slice b 0 17, src := slice b 17 17, ctype := le32 b 34, cflags := le32 b 38, length := byteAt b 42,
    tid := byteAt b 43 }

/-- `container_hdr(q)`, whose warning is `containerWarn` of the header (42 R105). -/
def containerHdr (q : Pdu) : Option ContainerHdr := (memRead q 3 44).map containerFields

/-- `container_data(q, h)` (42 R106). -/
def containerData (q : Pdu) (h : ContainerHdr) : Option (List Byte) :=
  if Config.containerDataMax < h.length.toNat then none else memRead q 47 h.length.toNat

/-- `container_data_byte(q, h, i)` (42 R107). -/
def containerDataByte (q : Pdu) (h : ContainerHdr) (i : Nat) : Option Byte :=
  if h.length.toNat ≤ i then none else memByte q (47 + i)

/-- The LongPacket header in its 43 bytes; bytes 34 and 35 are the pad (30 R54, 42 R111). -/
def longFields (b : List Byte) : LongHdr :=
  { dst := slice b 0 17, src := slice b 17 17, ctype := le32 b 36, length := le16 b 40, tid := byteAt b 42 }

/-- `long_hdr(q)`, whose warning is `longWarn` of the header (42 R109). -/
def longHdr (q : Pdu) : Option LongHdr := (memRead q 3 43).map longFields

/-- `long_data(q, h)` (42 R110). -/
def longData (P : Params) (q : Pdu) (h : LongHdr) : Option (List Byte) :=
  if P.longDataMax < h.length.toNat then none else memRead q 46 h.length.toNat

/-- The loop of QUERY_DEVICES (41 R99): the entries read and the offset it ends at. The first argument bounds the rounds. -/
def dsidLoop (q : Pdu) : Nat → Nat → List (List Byte) → Option (List (List Byte) × Nat)
  | 0, off, ids => some (ids, off)
  | n + 1, off, ids =>
    if off + 12 ≤ q.size then
      match memRead q off 12 with
      | some id => dsidLoop q n (off + 12) (ids ++ [id])
      | none => none
    else some (ids, off)

/-- The dSID entries of a QUERY_DEVICES response; `Lq` rounds are more than the loop can make. -/
def dsidEntries (q : Pdu) : Option (List (List Byte) × Nat) := dsidLoop q q.size 3 []

/-- A row whose response is one byte at offset 3 and whose request is empty (30 R56). -/
def oneByteResponse (q : Pdu) (warn : Byte → Warn) (field : Byte → Fields) : Decoded :=
  if isRequest q then .done noWarn .empty none
  else
    match memByte q 3 with
    | some b => .done (warn b) (field b) none
    | none => .raised noWarn

/-- A row carrying a Container with its data (41 R89, 42 R108). -/
def fullContainer (q : Pdu) : Decoded :=
  match containerHdr q with
  | none => .raised noWarn
  | some h =>
    match containerData q h with
    | some d => .done (containerWarn h) (.containerHdr h) (some d)
    | none => .raised (containerWarn h)

/-- A row carrying a LongPacket with its data (41 R91, 42 R108). -/
def fullLongPacket (P : Params) (q : Pdu) : Decoded :=
  match longHdr q with
  | none => .raised noWarn
  | some h =>
    match longData P q h with
    | some d => .done (longWarn P h) (.longHdr h) (some d)
    | none => .raised (longWarn P h)

/-- A bus event: empty in the request form, else a Container header and its data byte 3 (30 R58, R59; 41 R102, R103). -/
def busEvent (q : Pdu) (warn : Byte → Warn) (field : ContainerHdr → Byte → Fields) : Decoded :=
  if isRequest q then .done noWarn .empty none
  else
    match containerHdr q with
    | none => .raised noWarn
    | some h =>
      match containerDataByte q h 3 with
      | some b => .done (containerWarn h ||| warn b) (field h b) none
      | none => .raised (containerWarn h)

end Sys2Proof.Machine
end

