-- ==== Sys2Proof/Machine/Malformed.lean ====
section
/-! DEFINITION. The rows of PDUs that are no command: UNKNOWN (spec 41 R84) and CORRUPT_HEADER (40 R73). -/

namespace Sys2Proof.Machine

/-- UNKNOWN (41 R84). -/
def execUnknown (q : Pdu) (s : State) : Result := emitRecord Config.params q.len.toNat (unknownRecord q) s

/-- CORRUPT_HEADER: exactly the three header bytes are consumed (40 R73). -/
def execCorruptHeader (cmd : Byte) (len : Half) (s : State) : Result :=
  emitRecord Config.params Config.pduHdr (corruptRecord cmd len) s

end Sys2Proof.Machine
end

