-- ==== Sys2Proof/Machine/NoDecode.lean ====
section
/-! DEFINITION. PING and the six rows with no structured decode: an OK record with Empty fields; the payload is not read
(spec 41 R83, R86, R87, R93, R94, R96, R97, R98). -/

namespace Sys2Proof.Machine

/-- `no_decode(q, c)` (41 R83). -/
def emptyRecord (c : CommandId) (q : Pdu) : Record := okRecord c q noWarn .empty none

/-- 41 R86. -/
def syncRecord (q : Pdu) : Record := emptyRecord .sync q

/-- SYNC (41 R86). -/
def execSync (q : Pdu) (s : State) : Result := emitRecord Config.params q.len.toNat (syncRecord q) s

/-- 41 R87. -/
def pingRecord (q : Pdu) : Record := emptyRecord .ping q

/-- PING (41 R87). -/
def execPing (q : Pdu) (s : State) : Result := emitRecord Config.params q.len.toNat (pingRecord q) s

/-- 41 R93. -/
def devicePacketRecord (q : Pdu) : Record := emptyRecord .devicePacket q

/-- DEVICE_PACKET (41 R93). -/
def execDevicePacket (q : Pdu) (s : State) : Result := emitRecord Config.params q.len.toNat (devicePacketRecord q) s

/-- 41 R94. -/
def rawmodeRecord (q : Pdu) : Record := emptyRecord .rawmode q

/-- RAWMODE (41 R94). -/
def execRawmode (q : Pdu) (s : State) : Result := emitRecord Config.params q.len.toNat (rawmodeRecord q) s

/-- 41 R96. -/
def registerRecord (q : Pdu) : Record := emptyRecord .register q

/-- REGISTER (41 R96). -/
def execRegister (q : Pdu) (s : State) : Result := emitRecord Config.params q.len.toNat (registerRecord q) s

/-- 41 R97. -/
def unregisterRecord (q : Pdu) : Record := emptyRecord .unregister q

/-- UNREGISTER (41 R97). -/
def execUnregister (q : Pdu) (s : State) : Result := emitRecord Config.params q.len.toNat (unregisterRecord q) s

/-- 41 R98. -/
def queryAddressRecord (q : Pdu) : Record := emptyRecord .queryAddress q

/-- QUERY_ADDRESS (41 R98). -/
def execQueryAddress (q : Pdu) (s : State) : Result := emitRecord Config.params q.len.toNat (queryAddressRecord q) s

end Sys2Proof.Machine
end

