-- ==== Sys2Proof/Machine/Packets.lean ====
section
/-! DEFINITION. The rows that carry a Container or a LongPacket: the four packets with their data, the two bus events with the
header and data byte 3 (spec 41 R89 to R92, R102, R103; 42 R108, R114). -/

namespace Sys2Proof.Machine

/-- 41 R89. -/
def txPacketRecord (q : Pdu) : Record := decodedRecord .txPacket q (fullContainer q)

/-- TX_PACKET (41 R89). -/
def execTxPacket (q : Pdu) (s : State) : Result := emitRecord Config.params q.len.toNat (txPacketRecord q) s

/-- 41 R90. -/
def rxPacketRecord (q : Pdu) : Record := decodedRecord .rxPacket q (fullContainer q)

/-- RX_PACKET (41 R90). -/
def execRxPacket (q : Pdu) (s : State) : Result := emitRecord Config.params q.len.toNat (rxPacketRecord q) s

/-- 41 R91. -/
def longTxPacketRecord (P : Params) (q : Pdu) : Record := decodedRecord .longTxPacket q (fullLongPacket P q)

/-- LONG_TX_PACKET (41 R91). -/
def execLongTxPacket (q : Pdu) (s : State) : Result :=
  emitRecord Config.params q.len.toNat (longTxPacketRecord Config.params q) s

/-- 41 R92. -/
def longRxPacketRecord (P : Params) (q : Pdu) : Record := decodedRecord .longRxPacket q (fullLongPacket P q)

/-- LONG_RX_PACKET (41 R92). -/
def execLongRxPacket (q : Pdu) (s : State) : Result :=
  emitRecord Config.params q.len.toNat (longRxPacketRecord Config.params q) s

/-- The join/leave flag: a set bit means leave (41 R102). -/
def leaveFlag (P : Params) (fb : Byte) : Bool := fb &&& P.leaveMask != 0

/-- 41 R102. -/
def busChangeRecord (P : Params) (q : Pdu) : Record :=
  decodedRecord .busChange q (busEvent q (fun _ => noWarn) (fun h fb => .busChange h fb (leaveFlag P fb)))

/-- BUS_CHANGE (41 R102). -/
def execBusChange (q : Pdu) (s : State) : Result :=
  emitRecord Config.params q.len.toNat (busChangeRecord Config.params q) s

/-- 41 R103. -/
def busStateRecord (q : Pdu) : Record := decodedRecord .busState q (busEvent q busStateWarn .busStateEvent)

/-- BUS_STATE (41 R103). -/
def execBusState (q : Pdu) (s : State) : Result := emitRecord Config.params q.len.toNat (busStateRecord q) s

end Sys2Proof.Machine
end

