-- ==== Sys2Proof/Machine/Values.lean ====
section
/-! DEFINITION. The rows whose response is one value byte or dSIDs (spec 41 R88, R95, R99, R100, R101, R104). -/

namespace Sys2Proof.Machine

/-- 41 R88. -/
def apiRevisionRecord (q : Pdu) : Record :=
  decodedRecord .apiRevision q (oneByteResponse q (fun _ => noWarn) .revision)

/-- API_REVISION (41 R88). -/
def execApiRevision (q : Pdu) (s : State) : Result := emitRecord Config.params q.len.toNat (apiRevisionRecord q) s

/-- 41 R95. -/
def packetfilterRecord (q : Pdu) : Record :=
  decodedRecord .packetfilter q (oneByteResponse q (fun _ => noWarn) .filterFlags)

/-- PACKETFILTER (41 R95). -/
def execPacketfilter (q : Pdu) (s : State) : Result := emitRecord Config.params q.len.toNat (packetfilterRecord q) s

/-- 41 R104. -/
def restartBusRecord (q : Pdu) : Record :=
  decodedRecord .restartBus q (oneByteResponse q (fun _ => noWarn) .restartStatus)

/-- RESTART_BUS (41 R104). -/
def execRestartBus (q : Pdu) (s : State) : Result := emitRecord Config.params q.len.toNat (restartBusRecord q) s

/-- 41 R101. -/
def queryBusstateRecord (q : Pdu) : Record :=
  decodedRecord .queryBusstate q (oneByteResponse q busStateWarn .busStateValue)

/-- QUERY_BUSSTATE (41 R101). -/
def execQueryBusstate (q : Pdu) (s : State) : Result := emitRecord Config.params q.len.toNat (queryBusstateRecord q) s

/-- 41 R100. -/
def queryDsuidRecord (q : Pdu) : Record :=
  decodedRecord .queryDsuid q
    (if isRequest q then .done noWarn .empty none
     else
      match memRead q 3 12 with
      | some id => .done noWarn (.dsid id) none
      | none => .raised noWarn)

/-- QUERY_DSUID (41 R100). -/
def execQueryDsuid (q : Pdu) (s : State) : Result := emitRecord Config.params q.len.toNat (queryDsuidRecord q) s

/-- 41 R99. -/
def queryDevicesRecord (q : Pdu) : Record :=
  decodedRecord .queryDevices q
    (if isRequest q then .done noWarn .empty none
     else
      match dsidEntries q with
      | some (ids, off) => .done (if off < q.size then partialEntry else noWarn) (.devices ids) none
      | none => .raised noWarn)

/-- QUERY_DEVICES (41 R99). -/
def execQueryDevices (q : Pdu) (s : State) : Result := emitRecord Config.params q.len.toNat (queryDevicesRecord q) s

end Sys2Proof.Machine
end

