-- ==== Sys2Proof/Machine/Reassembler.lean ====
section
/-! DEFINITION. The frame reassembler: PUSH, CHUNK, EMIT, POP (spec 40 R68 to R75), and the decode of one PDU as one function
(41 R85, 43 R125). -/

namespace Sys2Proof.Machine

/-- The record of a command's rule (41 R86 to R104). -/
def commandRecord (P : Params) : CommandId → Pdu → Record
  | .sync => syncRecord
  | .apiRevision => apiRevisionRecord
  | .ping => pingRecord
  | .txPacket => txPacketRecord
  | .rxPacket => rxPacketRecord
  | .longTxPacket => longTxPacketRecord P
  | .longRxPacket => longRxPacketRecord P
  | .devicePacket => devicePacketRecord
  | .register => registerRecord
  | .unregister => unregisterRecord
  | .packetfilter => packetfilterRecord
  | .rawmode => rawmodeRecord
  | .queryDevices => queryDevicesRecord
  | .queryDsuid => queryDsuidRecord
  | .queryAddress => queryAddressRecord
  | .queryBusstate => queryBusstateRecord
  | .busChange => busChangeRecord P
  | .busState => busStateRecord
  | .restartBus => restartBusRecord

/-- `decode_body(q, raw)` (41 R85). -/
def decodeBody (P : Params) (q : Pdu) : Record :=
  match lookup P q.cmd with
  | none => unknownRecord q
  | some c => commandRecord P c q

/-- `crc_stage(p)` (43 R125). -/
def crcStage (P : Params) (p : List Byte) : Record :=
  match checkTrailer P.crc p (le16 p 1).toNat with
  | .short => truncatedRecord (pduOfBytes p) noWarn
  | .mismatch => crcErrorRecord (pduOfBytes p)
  | .good body => decodeBody P (pduOfBytes body)

/-- `decode(p)` (41 R85). -/
def decodeRecord (P : Params) (p : List Byte) : Record :=
  match P.crcAttach with
  | .none => decodeBody P (pduOfBytes p)
  | .trailer => crcStage P p

/-- The record EMIT queues for the extracted PDU `p` (40 R71). -/
def pduRecord (P : Params) (p : List Byte) : Record :=
  if (le16 p 1).toNat < 3 then corruptRecord (byteAt p 0) (le16 p 1) else decodeRecord P p

/-- PUSH (40 R68). -/
def execPush (b : Byte) (s : State) : Result := pushByte b s

/-- CHUNK (40 R69): the PUSHes of its bytes, one a step; the bytes left are the host's next operation. -/
def execChunk (bs : List Byte) (s : State) : Result :=
  match bs with
  | [] => .next s
  | b :: rest =>
    if complete s.buf then .next s
    else pushByte b (if rest.isEmpty then s else s.withHostOps (.chunk rest :: s.hostOps))

/-- EMIT (40 R71): enabled when a PDU is complete and there is room; else it waits. -/
def execEmit (s : State) : Result :=
  if complete s.buf then
    emitRecord Config.params (pduSize s.buf) (pduRecord Config.params (s.buf.take (pduSize s.buf))) s
  else .next s

/-- POP (40 R75). -/
def execPop (s : State) : Result := popRecord s

end Sys2Proof.Machine
end

