-- ==== Sys2Proof/Machine/Dispatch.lean ====
section
/-! DEFINITION. One arm per constructor of `Instr`, each a direct call of its meaning. -/

namespace Sys2Proof.Machine

def exec (i : Instr) (s : State) : Host.Outcome State Fault Refusal :=
  match i with
  | .sync q => Sys2Proof.Machine.execSync q s
  | .apiRevision q => Sys2Proof.Machine.execApiRevision q s
  | .ping q => Sys2Proof.Machine.execPing q s
  | .txPacket q => Sys2Proof.Machine.execTxPacket q s
  | .rxPacket q => Sys2Proof.Machine.execRxPacket q s
  | .longTxPacket q => Sys2Proof.Machine.execLongTxPacket q s
  | .longRxPacket q => Sys2Proof.Machine.execLongRxPacket q s
  | .devicePacket q => Sys2Proof.Machine.execDevicePacket q s
  | .register q => Sys2Proof.Machine.execRegister q s
  | .unregister q => Sys2Proof.Machine.execUnregister q s
  | .packetfilter q => Sys2Proof.Machine.execPacketfilter q s
  | .rawmode q => Sys2Proof.Machine.execRawmode q s
  | .queryDevices q => Sys2Proof.Machine.execQueryDevices q s
  | .queryDsuid q => Sys2Proof.Machine.execQueryDsuid q s
  | .queryAddress q => Sys2Proof.Machine.execQueryAddress q s
  | .queryBusstate q => Sys2Proof.Machine.execQueryBusstate q s
  | .busChange q => Sys2Proof.Machine.execBusChange q s
  | .busState q => Sys2Proof.Machine.execBusState q s
  | .restartBus q => Sys2Proof.Machine.execRestartBus q s
  | .unknown q => Sys2Proof.Machine.execUnknown q s
  | .corruptHeader cmd len => Sys2Proof.Machine.execCorruptHeader cmd len s
  | .push b => Sys2Proof.Machine.execPush b s
  | .chunk bs => Sys2Proof.Machine.execChunk bs s
  | .emit => Sys2Proof.Machine.execEmit s
  | .pop => Sys2Proof.Machine.execPop s
  | .streamReset => Sys2Proof.Machine.execStreamReset s
  | .reset => Sys2Proof.Machine.execReset s
  | .rd off => Sys2Proof.Machine.execRd off s
  | .wr off v => Sys2Proof.Machine.execWr off v s

end Sys2Proof.Machine
end

