-- ==== Sys2Proof/Machine/Step.lean ====
section
/-! DEFINITION. One step of the machine: one atomic step of one agent (spec 20 R40, R43). -/

namespace Sys2Proof.Machine

/-- The engine's move: where EMIT is enabled, the instruction whose PDU stands in the buffer runs. A PDU that the CRC stage
turns away has no row of its own, and EMIT's meaning gives its record (43 R125). -/
def engineTurn (s : State) : Result :=
  if emitEnabled Config.params s then
    match fetch Config.params s with
    | .ok i => exec i s
    | .error _ => exec .emit s
  else .next s

/-- The host's move with the first of its pending operations: it is performed when its enabling condition holds, else the host
waits with it (70 R150, R151). -/
def hostTurn (s : State) : Result :=
  match s.hostOps with
  | [] => .next s
  | t :: rest =>
    match decodeTransaction t with
    | .ok i => if enabled Config.params s i then exec i (s.withHostOps rest) else .next s
    | .error e => .refused (refuseAccess e)

/-- The host's move on a port, ahead of its pending operations: the operation is performed when it is enabled; if not, it waits behind the host's pending
operations, so that no byte is lost (70 R150, R151; log entry 3). It does not look at what waits already: a PUSH on a later port
turn that is enabled goes ahead of one that waits, which the spec leaves open (log entry 18). -/
def portTurn (t : Transaction) (s : State) : Result :=
  match decodeTransaction t with
  | .ok i => if enabled Config.params s i then exec i s else .next (s.withHostOps (s.hostOps ++ [t]))
  | .error e => .refused (refuseAccess e)

/-- One step. The turns given come first; after them EMIT moves whenever it is enabled (its weak fairness, 40 R79), else the
host. Where no agent has an enabled step, nothing changes (70 R151, R155). -/
def step (s : State) : Host.Outcome State Fault Refusal :=
  match s.turns with
  | .engine :: ts => engineTurn (s.withTurns ts)
  | .host :: ts => hostTurn (s.withTurns ts)
  | .port t :: ts => portTurn t (s.withTurns ts)
  | [] => if emitEnabled Config.params s then engineTurn s else hostTurn s

/-- `s` with the instruction of a table word where the next step fetches it (a name the host fixes; log entry 9). -/
def State.withFetchWord (s : State) (nbits w : Nat) : State := placeWord s nbits w

end Sys2Proof.Machine
end

