-- ==== Sys2Proof/Machine/Identifiers.lean ====
section
/-! DEFINITION. The pure functions of spec 43 beside the decode: equality and sentinels of identifiers (R118, R119), classes of
bus addresses (R120), and the enumerants of the container fields (30 R61, 43 R128). The engine's records hold the raw values;
these are for their consumer. -/

namespace Sys2Proof.Machine

/-- `id_eq(a, b)`: byte for byte, never across lengths (43 R118). -/
def idEq (a b : List Byte) : Bool := a.length == b.length && (a.zip b).all (fun p => p.1 == p.2)

/-- The classes of a DeviceId (43 R119). -/
inductive IdClass where
  | null | broadcast | ordinary
  deriving DecidableEq, Repr

/-- `id_class(a)` of an identifier of any length (43 R119). -/
def idClass (a : List Byte) : IdClass :=
  if idEq a (List.replicate a.length 0x00) then .null
  else if idEq a (List.replicate a.length 0xFF) then .broadcast
  else .ordinary

/-- The classes of a BusAddress (43 R120). -/
inductive AddrClass where
  | master | slave | intermediate | broadcast | invalid
  deriving DecidableEq, Repr

/-- `addr_class(a, at_dest)` (43 R120). -/
def addrClass (a : Byte) (atDest : Bool) : AddrClass :=
  if a = 0 then .master
  else if 1 ≤ a.toNat ∧ a.toNat ≤ 62 then .slave
  else if a = 63 then .intermediate
  else if a = 0xFF ∧ atDest = true then .broadcast
  else .invalid

/-- containerType (30 R61): Request, Response, Event, at values that are parameters. -/
inductive ContainerType where
  | request | response | event
  deriving DecidableEq, Repr

/-- The containerType a `ctype` names, if any (30 R61, 43 R128). -/
def containerTypeOf (P : Params) (v : Word) : Option ContainerType :=
  if v = P.ctypeRequest then some .request
  else if v = P.ctypeResponse then some .response
  else if v = P.ctypeEvent then some .event
  else none

/-- containerFlags (30 R61): None, Broadcast, at values that are parameters. -/
inductive ContainerFlags where
  | none | broadcast
  deriving DecidableEq, Repr

/-- The containerFlags a `cflags` names, if any (30 R61, 43 R128). -/
def containerFlagsOf (P : Params) (v : Word) : Option ContainerFlags :=
  if v = P.cflagNone then some .none
  else if v = P.cflagBroadcast then some .broadcast
  else Option.none

end Sys2Proof.Machine
end

