-- ==== Sys2Proof/Safety.lean ====
section
/-! DEFINITION. The terms the statements use: what a DCMD row does, which records and states the spec allows, what a stream is
as a whole, and when a run is final (spec 10, 40 R72, R74, 60 R137, 70 R157). -/

namespace Sys2Proof.Safety

open Sys2Proof.Machine

/-- From every state with room, `i` takes `n` bytes off the buffer, queues `r` and changes nothing else (40 R71). -/
def EmitsRecord (i : Instr) (n : Nat) (r : Record) : Prop :=
  ∀ s : State, s.outq.length < Config.params.outDepth →
    exec i s = .next { s with buf := s.buf.drop n, outq := s.outq ++ [r] }

/-- `row` is the row of `c`: a PDU whose command byte is `CMD_CODE(c)` selects it, under every parameter (30 R64, 41 R81). -/
def RowOf (c : CommandId) (row : Pdu → Instr) : Prop :=
  ∀ (P : Params) (q : Pdu), q.cmd = P.codes.code c → selectCommand P q = row q

/-- `ok(q, c, fields, nested)` with its warnings, written out (41 R83). -/
def okRec (c : CommandId) (q : Pdu) (w : Warn) (f : Fields) (nested : Option (List Byte)) : Record :=
  ⟨.ok, w, q.cmd, .known c, q.len, some f, nested⟩

/-- `truncated_record(q, raw, warn)`, written out (60 R132). -/
def truncRec (q : Pdu) (w : Warn) : Record :=
  ⟨.truncated, w, q.cmd, .unknown q.cmd, q.len, none, some q.payload⟩

/-- The Container header of 42 R116: `container_bytes` without its data. -/
def containerHeadBytes (dst src : List Byte) (ctype cflags : Word) (length tid : Byte) : List Byte :=
  dst ++ src ++ leBytes 4 ctype.toNat ++ leBytes 4 cflags.toNat ++ [length, tid]

/-- The LongPacket header of 42 R117: `long_bytes` without its data. -/
def longHeadBytes (dst src : List Byte) (pad : Half) (ctype : Word) (length : Half) (tid : Byte) : List Byte :=
  dst ++ src ++ leBytes 2 pad.toNat ++ leBytes 4 ctype.toNat ++ leBytes 2 length.toNat ++ [tid]

/-- Both identifiers of a header are 17 bytes (30 R52, R54). -/
def IdsFit (dst src : List Byte) : Prop := dst.length = 17 ∧ src.length = 17

/-- The warning of a Container's `length` alone (42 R105). -/
def lengthWarn (length : Byte) : Warn := if 127 < length.toNat then 1 else 0

/-- The warning of a BusState byte alone (30 R60, 60 R133). -/
def stateWarn (b : Byte) : Warn := if 1 ≤ b.toNat ∧ b.toNat ≤ 5 then 0 else 1

/-- A row whose response is one value byte (41 R88, R95, R101, R104): request form, and response form with its first byte;
later bytes are ignored (42 R112). -/
def OneByteRow (row : Pdu → Instr) (c : CommandId) (warn : Byte → Warn) (field : Byte → Fields) : Prop :=
  RowOf c row ∧ ∀ q : Pdu,
    (q.payload = [] → EmitsRecord (row q) q.len.toNat (okRec c q 0 .empty none)) ∧
    ∀ b rest, q.payload = b :: rest → EmitsRecord (row q) q.len.toNat (okRec c q (warn b) (field b) none)

/-- A row carrying a Container with its data (41 R89, 42 R105, R106): cut header, length over capacity, cut data, and the
decoded form, with the surplus bytes ignored. -/
def ContainerRow (row : Pdu → Instr) (c : CommandId) : Prop :=
  RowOf c row ∧ ∀ q : Pdu,
    (q.payload.length < 44 → EmitsRecord (row q) q.len.toNat (truncRec q 0)) ∧
    ∀ dst src ctype cflags length tid tail, IdsFit dst src →
      q.payload = containerHeadBytes dst src ctype cflags length tid ++ tail →
      (127 < length.toNat → EmitsRecord (row q) q.len.toNat (truncRec q 1)) ∧
      (length.toNat ≤ 127 → tail.length < length.toNat → EmitsRecord (row q) q.len.toNat (truncRec q 0)) ∧
      (length.toNat ≤ 127 → length.toNat ≤ tail.length →
        EmitsRecord (row q) q.len.toNat
          (okRec c q 0 (.containerHdr ⟨dst, src, ctype, cflags, length, tid⟩) (some (tail.take length.toNat))))

/-- A row carrying a LongPacket with its data (41 R91, 42 R109, R110), likewise; the pad is in no record field. -/
def LongPacketRow (row : Pdu → Instr) (c : CommandId) : Prop :=
  RowOf c row ∧ ∀ q : Pdu,
    (q.payload.length < 43 → EmitsRecord (row q) q.len.toNat (truncRec q 0)) ∧
    ∀ dst src pad ctype length tid tail, IdsFit dst src →
      q.payload = longHeadBytes dst src pad ctype length tid ++ tail →
      (Config.params.longDataMax < length.toNat → EmitsRecord (row q) q.len.toNat (truncRec q 1)) ∧
      (length.toNat ≤ Config.params.longDataMax → tail.length < length.toNat →
        EmitsRecord (row q) q.len.toNat (truncRec q 0)) ∧
      (length.toNat ≤ Config.params.longDataMax → length.toNat ≤ tail.length →
        EmitsRecord (row q) q.len.toNat
          (okRec c q 0 (.longHdr ⟨dst, src, ctype, length, tid⟩) (some (tail.take length.toNat))))

/-- A bus event (41 R102, R103, 42 R107): empty request form; cut header; byte 3 outside the data; and the decoded form, whose
header may warn and whose data is not delimited. -/
def BusEventRow (row : Pdu → Instr) (c : CommandId) (warn : Byte → Warn) (field : ContainerHdr → Byte → Fields) : Prop :=
  RowOf c row ∧ ∀ q : Pdu,
    (q.payload = [] → EmitsRecord (row q) q.len.toNat (okRec c q 0 .empty none)) ∧
    (0 < q.payload.length → q.payload.length < 44 → EmitsRecord (row q) q.len.toNat (truncRec q 0)) ∧
    ∀ dst src ctype cflags length tid tail, IdsFit dst src →
      q.payload = containerHeadBytes dst src ctype cflags length tid ++ tail →
      (length.toNat < 4 ∨ tail.length < 4 → EmitsRecord (row q) q.len.toNat (truncRec q (lengthWarn length))) ∧
      (4 ≤ length.toNat → ∀ d0 d1 d2 b rest, tail = d0 :: d1 :: d2 :: b :: rest →
        EmitsRecord (row q) q.len.toNat
          (okRec c q (lengthWarn length ||| warn b) (field ⟨dst, src, ctype, cflags, length, tid⟩ b) none))

/-- Which fields a command's OK record may hold (10 R22, 41 R86 to R104). -/
def FieldsFit (P : Params) : CommandId → Fields → Prop
  | .apiRevision, .revision _ => True
  | .packetfilter, .filterFlags _ => True
  | .restartBus, .restartStatus _ => True
  | .queryBusstate, .busStateValue _ => True
  | .queryDsuid, .dsid id => id.length = 12
  | .queryDevices, .devices ids => ∀ id ∈ ids, id.length = 12
  | .txPacket, .containerHdr h => IdsFit h.dst h.src ∧ h.length.toNat ≤ 127
  | .rxPacket, .containerHdr h => IdsFit h.dst h.src ∧ h.length.toNat ≤ 127
  | .longTxPacket, .longHdr h => IdsFit h.dst h.src ∧ h.length.toNat ≤ P.longDataMax
  | .longRxPacket, .longHdr h => IdsFit h.dst h.src ∧ h.length.toNat ≤ P.longDataMax
  | .busChange, .busChange h fb leave => IdsFit h.dst h.src ∧ 4 ≤ h.length.toNat ∧ (leave = true ↔ fb &&& P.leaveMask ≠ 0)
  | .busState, .busStateEvent h _ => IdsFit h.dst h.src ∧ 4 ≤ h.length.toNat
  | c, .empty => c ≠ .txPacket ∧ c ≠ .rxPacket ∧ c ≠ .longTxPacket ∧ c ≠ .longRxPacket
  | _, _ => False

/-- The nested payload an OK record's fields call for (42 R108). -/
def NestedFits : Fields → Option (List Byte) → Prop
  | .containerHdr h, n => ∃ d, n = some d ∧ d.length = h.length.toNat
  | .longHdr h, n => ∃ d, n = some d ∧ d.length = h.length.toNat
  | _, n => n = none

/-- The warnings an OK record's fields call for (60 R133, R137): PARTIAL_ENTRY with Devices only. -/
def WarnFits : Fields → Warn → Prop
  | .busStateValue b, w => (w = invalidField ↔ b.toNat < 1 ∨ 5 < b.toNat) ∧ (w = invalidField ∨ w = noWarn)
  | .busChange h _ _, w => (w = invalidField ↔ 127 < h.length.toNat) ∧ (w = invalidField ∨ w = noWarn)
  | .busStateEvent h b, w =>
    (w = invalidField ↔ 127 < h.length.toNat ∨ b.toNat < 1 ∨ 5 < b.toNat) ∧ (w = invalidField ∨ w = noWarn)
  | .devices _, w => w = partialEntry ∨ w = noWarn
  | _, w => w = noWarn

/-- A record the engine can make under `P` (10 R21 to R24, 60 R131, R132, R137). -/
def RecordLegal (P : Params) (r : Record) : Prop :=
  match r.status with
  | .ok =>
    3 ≤ r.rawLength.toNat ∧
      ∃ c f, r.command = .known c ∧ r.cmdByte = P.codes.code c ∧ r.fields = some f ∧ FieldsFit P c f ∧
        NestedFits f r.nestedPayload ∧ WarnFits f r.warn
  | .unknown =>
    3 ≤ r.rawLength.toNat ∧ r.command = .unknown r.cmdByte ∧ (∀ c, P.codes.code c ≠ r.cmdByte) ∧ r.fields = none ∧
      r.nestedPayload.isSome = true ∧ r.warn = noWarn
  | .truncated =>
    3 ≤ r.rawLength.toNat ∧ r.command = .unknown r.cmdByte ∧ r.fields = none ∧ r.nestedPayload.isSome = true ∧
      (r.warn = noWarn ∨ r.warn = invalidField)
  | .corruptLength =>
    r.rawLength.toNat < 3 ∧ r.command = .unknown r.cmdByte ∧ r.fields = none ∧ r.nestedPayload = some [] ∧ r.warn = noWarn
  | .crcError =>
    P.crcAttach = .trailer ∧ 3 ≤ r.rawLength.toNat ∧ r.command = .unknown r.cmdByte ∧ r.fields = none ∧
      r.nestedPayload.isSome = true ∧ r.warn = noWarn

/-- The buffer never holds more than one PDU (40 R72). -/
def BufferFits (buf : List Byte) : Prop := 3 ≤ buf.length → buf.length ≤ pduSize buf

/-- What every step keeps: one PDU at most in the buffer (40 R72), the queue within its depth (10 R19), and legal records in
the queue and with the host. -/
def Inv (s : State) : Prop :=
  BufferFits s.buf ∧ s.outq.length ≤ Config.params.outDepth ∧
    (∀ r ∈ s.outq, RecordLegal Config.params r) ∧ ∀ r ∈ s.popped, RecordLegal Config.params r

/-- The contract of 40 R67 on a whole stream: the records of its PDUs, and the bytes left over. The first argument bounds the
number of PDUs. -/
def framesUpTo (P : Params) : Nat → List Byte → List Record × List Byte
  | 0, S => ([], S)
  | n + 1, S =>
    if complete S then
      let rest := framesUpTo P n (S.drop (pduSize S))
      (pduRecord P (S.take (pduSize S)) :: rest.1, rest.2)
    else ([], S)

/-- The records of a stream and the bytes left over. -/
def streamDecode (P : Params) (S : List Byte) : List Record × List Byte := framesUpTo P S.length S

/-- The stream bytes a host operation pushes (40 R68, R69, R78). -/
def pushedBytes : Transaction → List Byte
  | .push b => [b]
  | .chunk bs => bs
  | .write off _ v => if off = 0x10 then [v.setWidth 8] else []
  | .pop | .sreset | .reset | .read _ _ => []

/-- An operation that discards nothing: neither reset, nor a write to CTRL. -/
def keepsStream : Transaction → Bool
  | .push _ | .chunk _ | .pop | .read _ _ => true
  | .write off _ _ => off != 0x00
  | .sreset | .reset => false

/-- A turn that neither discards nor pushes on another port. -/
def plainTurn : Turn → Bool
  | .engine | .host => true
  | .port t => keepsStream t && (pushedBytes t).isEmpty

/-- The host only streams: every byte comes from its pending operations, and nothing is discarded. -/
def StreamOnly (s : State) : Prop :=
  (∀ t ∈ s.hostOps, keepsStream t = true) ∧ ∀ t ∈ s.turns, plainTurn t = true

/-- The bytes buffered and still to be pushed. -/
def pendingStream (s : State) : List Byte := s.buf ++ s.hostOps.flatMap pushedBytes

/-- Every record the host has, the queue holds or the pending stream will give, in order, and what will be left over. -/
def streamTotal (s : State) : List Record × List Byte :=
  let S := streamDecode Config.params (pendingStream s)
  (s.popped ++ s.outq ++ S.1, S.2)

/-- `k` steps of the machine, stopping where a step gives no next state: `core.run`, with the state's type written out. -/
def runSteps : Nat → State → Result
  | 0, s => .next s
  | k + 1, s =>
    match step s with
    | .next s' => runSteps k s'
    | .fault r => .fault r
    | .refused r => .refused r

/-- The stream bytes that a coming turn pushes on a port of its own. -/
def turnBytes : Turn → List Byte
  | .engine | .host => []
  | .port t => pushedBytes t

/-- The end of a run (70 R157): the host has pushed every byte of its stream and no PUSH of it waits, be it pending or on a
coming turn, and EMIT is not enabled. -/
def Final (s : State) : Prop :=
  s.hostOps.flatMap pushedBytes = [] ∧ s.turns.flatMap turnBytes = [] ∧ emitEnabled Config.params s = false

/-- The coming step takes the host's transaction `t`: on a port turn, or as the first pending operation when the host moves
(log entry 3). -/
def TakesNext (s : State) (t : Transaction) : Prop :=
  (∃ ts, s.turns = .port t :: ts) ∨
    ∃ ops, s.hostOps = t :: ops ∧
      ((∃ ts, s.turns = .host :: ts) ∨ s.turns = [] ∧ emitEnabled Config.params s = false)

/-- The observation of a run (70 R157): the records popped, then those queued, and BUF_LEVEL. -/
def observation (s : State) : List Record × Word := (s.popped ++ s.outq, bufLevelReg s)

/-- The checker of 43 R122 on unbounded naturals, as its pseudocode has it: one inner step. -/
def crcStepNat (w poly reg : Nat) : Nat :=
  if reg / 2 ^ (w - 1) % 2 = 1 then (Nat.xor (2 * reg) poly) % 2 ^ w else (2 * reg) % 2 ^ w

/-- `crc(bs)` of 43 R122 on unbounded naturals. `reflectNat w v` reverses the low `w` bits of `v`. -/
def reflectNat (w v : Nat) : Nat := (List.range w).foldl (fun acc i => acc + v / 2 ^ i % 2 * 2 ^ (w - 1 - i)) 0

def crcNat (w poly init xorout : Nat) (refin refout : Bool) (bs : List Byte) : Nat :=
  let feed := fun (reg : Nat) (b : Byte) =>
    let v := if refin then reflectNat 8 b.toNat else b.toNat
    (crcStepNat w poly)^[8] (Nat.xor reg (v * 2 ^ (w - 8)))
  let reg := bs.foldl feed init
  Nat.xor (if refout then reflectNat w reg else reg) xorout

end Sys2Proof.Safety
end

