-- ==== Sys2Proof/Certificates/Slice0/Obligations.lean ====
section
/-! DEFINITION. The statements for the provers, from the numbered rules of the spec. -/

open Sys2Proof Sys2Proof.Machine Sys2Proof.Safety

/-! ### Encoding and decoding -/

/-- 30 R47, R48, R64, 40 R73, 43 R124: the decoder reads back every well-formed DCMD instruction, with every operand, under every
admissible parameter (with a CRC trailer too), and leaves the rest of the stream. -/
def Obligations.EncodedInstructionsDecodeBack : Prop :=
  ∀ (P : Params) (i : Instr) (rest : List Byte), WellFormed P i → encodePdu P i ≠ [] →
    decodePdu P (encodePdu P i ++ rest) = .ok (i, rest)

/-- 30 R47, R64: what the decoder reads is well-formed and encodes to the very bytes it took, so each stream prefix has one
meaning and no bit of it is dropped. -/
def Obligations.DecodedInstructionsEncodeBack : Prop :=
  ∀ (P : Params) (bytes : List Byte) (i : Instr) (rest : List Byte), decodePdu P bytes = .ok (i, rest) →
    WellFormed P i ∧ encodePdu P i ++ rest = bytes

/-- 40 R68 to R78, 70 R145: the host's transactions decode to their rows, aligned 32-bit register accesses among them. -/
def Obligations.HostTransactionsDecodeBack : Prop :=
  ∀ (P : Params) (i : Instr) (t : Transaction), WellFormed P i → encodeTransaction i = some t → decodeTransaction t = .ok i

/-- 30 R48, R64, 40 R73: words written out from the encodings decode to their rows. A check on fixed words. -/
def Obligations.SampleWordsDecode : Prop :=
  decodePdu Config.params [0x02, 0x03, 0x00] = .ok (.ping ⟨0x02, 3, []⟩, []) ∧
  decodePdu Config.params [0x23, 0x04, 0x00, 0x03, 0x02] = .ok (.queryBusstate ⟨0x23, 4, [0x03]⟩, [0x02]) ∧
  decodePdu Config.params [0x99, 0x04, 0x00, 0xAA] = .ok (.unknown ⟨0x99, 4, [0xAA]⟩, []) ∧
  decodePdu Config.params [0x07, 0x00, 0x00, 0x02] = .ok (.corruptHeader 0x07 0, [0x02]) ∧
  decodePdu Config.params [0x02, 0x05, 0x00, 0x01] = .error .incomplete

/-! ### Steps -/

/-- The model's convention (log entries 3, 7) over 40 R71: when the buffered bytes decode to an instruction and there is room,
the engine's turn runs that instruction; the turn is used up, and without given turns the engine goes first (40 R79). -/
def Obligations.StepRunsTheBufferedInstruction : Prop :=
  ∀ (s : State) (i : Instr) (rest : List Byte), decodePdu Config.params s.buf = .ok (i, rest) →
    s.outq.length < Config.params.outDepth →
    (s.turns = [] → step s = exec i s) ∧ ∀ ts, s.turns = .engine :: ts → step s = exec i { s with turns := ts }

/-- The model's convention (log entries 3, 4) over 40 R68 to R78: a host turn performs the first pending operation and retires
it when the operation is enabled, and leaves it pending when not; a port turn performs its own operation when enabled, and else
puts it behind the pending ones, so that it waits and no byte is lost (70 R150, R151). -/
def Obligations.StepPerformsHostOperations : Prop :=
  ∀ (s : State) (t : Transaction) (i : Instr), decodeTransaction t = .ok i →
    (∀ ops, s.hostOps = t :: ops → s.turns = [] → emitEnabled Config.params s = false →
      step s = if enabled Config.params s i then exec i { s with hostOps := ops } else .next s) ∧
    (∀ ops ts, s.hostOps = t :: ops → s.turns = .host :: ts →
      step s = if enabled Config.params s i then exec i { s with hostOps := ops, turns := ts }
        else .next { s with turns := ts }) ∧
    ∀ ts, s.turns = .port t :: ts →
      step s = if enabled Config.params s i then exec i { s with turns := ts }
        else .next { s with turns := ts, hostOps := s.hostOps ++ [t] }

/-- 40 R80, 70 R151, R155: where the agent that moves has nothing enabled, only the turn is used up: the run is stuck or over,
not faulted. -/
def Obligations.IdleTurnsChangeNothing : Prop :=
  ∀ s : State,
    (∀ ts, s.turns = .engine :: ts → emitEnabled Config.params s = false → step s = .next { s with turns := ts }) ∧
    (∀ ts, s.turns = .host :: ts → s.hostOps = [] → step s = .next { s with turns := ts }) ∧
    (s.turns = [] → s.hostOps = [] → emitEnabled Config.params s = false → step s = .next s)

/-- 40 R79, weak fairness of EMIT in the model's order of moves (log entry 3): if EMIT is still enabled when the given turns
are used up, it has fired by then or fires next. -/
def Obligations.EnabledEmitFires : Prop :=
  ∀ s t : State, runSteps s.turns.length s = .next t → emitEnabled Config.params t = true → step t = exec .emit t

/-- 10 R25, 60 R134: a step that takes a register access which is not an aligned 32-bit access, on a port turn or from the
host's pending operations, is refused. The two names, and that the width is looked at first, are the model's choice (log entry
11), as is when the host moves (log entry 3). -/
def Obligations.BadAccessesAreRefused : Prop :=
  ∀ (s : State) (off : Byte) (bits : Nat) (v : Word) (t : Transaction),
    t = .read off bits ∨ t = .write off bits v → TakesNext s t →
    (bits ≠ 32 → step s = .refused (.csrWidth bits)) ∧
    (bits = 32 → off.toNat % 4 ≠ 0 → step s = .refused (.csrUnaligned off))

/-- 60 R129, 93 (no behaviour is a fault): whatever the state, a step gives a next state, unless it takes a register access
that is not an aligned 32-bit access. Which transaction a step takes is the model's order of moves (log entry 3). -/
def Obligations.OnlyBadAccessesStopAStep : Prop :=
  ∀ s : State, (∃ t, step s = .next t) ∨
    ∃ off bits, (bits ≠ 32 ∨ off.toNat % 4 ≠ 0) ∧
      (TakesNext s (.read off bits) ∨ ∃ v, TakesNext s (.write off bits v))

/-- 40 R71, 41 R85: running the row whose PDU is buffered is EMIT as its pseudocode has it. -/
def Obligations.BufferedRowIsEmit : Prop :=
  ∀ (s : State) (i : Instr) (rest : List Byte), decodePdu Config.params s.buf = .ok (i, rest) → exec i s = exec .emit s

/-! ### Reset and invariants -/

/-- 70 R144: every reset value. The host's side (log entries 3, 4) is the model's and is not part of the rule. -/
def Obligations.ResetStateIsAsStated : Prop :=
  State.reset.buf = [] ∧ State.reset.outq = [] ∧
    ∀ (P : Params) (off : Byte), csrRead P State.reset off = if off = 0x04 then 0x00000001 else 0

/-- The invariant holds after reset. -/
def Obligations.ResetMeetsTheInvariant : Prop := Inv State.reset

/-- 10 R17, R19, R21 to R24, 40 R72, 60 R137: from every state that meets it, a step keeps: at most one PDU buffered, the queue
within OUT_DEPTH, and every record in the queue and with the host a record the rules allow. -/
def Obligations.EveryStepKeepsTheInvariant : Prop :=
  ∀ s t : State, Inv s → step s = .next t → Inv t

/-- 40 R72 (which the spec marks as derived), 10 R17: under the invariant the buffer and BUF_LEVEL never pass 65535, and an EMIT leaves the buffer empty. -/
def Obligations.OnePduFillsTheBuffer : Prop :=
  ∀ s t : State, BufferFits s.buf →
    s.buf.length ≤ 65535 ∧
      (complete s.buf = true → s.outq.length < Config.params.outDepth → exec .emit s = .next t → t.buf = [])

/-- 40 R67, R74, 20 R43: while the host only streams, no step changes what the stream as a whole gives: the records it has,
those queued and those still to come, in order, and the bytes left over. -/
def Obligations.StreamingConservesRecords : Prop :=
  ∀ s t : State, StreamOnly s → step s = .next t → StreamOnly t ∧ streamTotal t = streamTotal s

/-- 40 R74, split invariance, which the spec marks as derived: two runs over one stream, cut into any pushes and chunks and
interleaved in any way (log entry 3), that are final (70 R157) with no PDU waiting for room, show the same records and leave
the same bytes. -/
def Obligations.SplitInvariance : Prop :=
  ∀ (s s' t t' : State) (m n : Nat), StreamOnly s → StreamOnly s' →
    pendingStream s = pendingStream s' → s.popped ++ s.outq = s'.popped ++ s'.outq →
    runSteps m s = .next t → runSteps n s' = .next t' →
    Final t → Final t' → complete t.buf = false → complete t'.buf = false →
    observation t = observation t' ∧ t.buf = t'.buf

/-- 20 R43, R41: records leave the engine only by POP and RESET, in the order they came: every instruction but RESET keeps the
records with the host and in the queue, in order, and adds at most one, at the end, and none but POP hands the host a record. -/
def Obligations.RecordsLeaveInOrder : Prop :=
  ∀ (i : Instr) (s t : State), exec i s = .next t → i ≠ .reset → (∀ v, i = .wr 0x00 v → v.getLsbD 1 = false) →
    (∃ added, t.popped ++ t.outq = s.popped ++ s.outq ++ added ∧ added.length ≤ 1) ∧
      (i ≠ .pop → t.popped = s.popped)

/-- 00 R14, 41 R85: what a DCMD row queues and how many bytes it takes depend on its PDU alone: from every state with room it
gives the same record, and changes nothing else. -/
def Obligations.RecordIsAFunctionOfThePdu : Prop :=
  ∀ (i : Instr), (i.pdu?.isSome = true ∨ ∃ cmd len, i = .corruptHeader cmd len) → ∃ n r, EmitsRecord i n r

/-- 40 R71 ("when outq is full, EMIT waits"): with a full queue a DCMD row and EMIT change nothing. -/
def Obligations.FullQueueHoldsEmit : Prop :=
  ∀ (i : Instr) (s : State), (i.pdu?.isSome = true ∨ (∃ cmd len, i = .corruptHeader cmd len) ∨ i = .emit) →
    Config.params.outDepth ≤ s.outq.length → exec i s = .next s

/-- 60 R137: which status a PDU reports, in the order of the stages, and which warnings go with it. -/
def Obligations.StatusFollowsPriority : Prop :=
  ∀ (P : Params) (p : List Byte),
    ((le16 p 1).toNat < 3 → (pduRecord P p).status = .corruptLength) ∧
    (3 ≤ (le16 p 1).toNat → P.crcAttach = .trailer → (le16 p 1).toNat - 3 < P.crc.width.bytes →
      (pduRecord P p).status = .truncated) ∧
    (3 ≤ (le16 p 1).toNat → P.crcAttach = .trailer → checkTrailer P.crc p (le16 p 1).toNat = .mismatch →
      (pduRecord P p).status = .crcError) ∧
    (∀ q, 3 ≤ (le16 p 1).toNat →
      (P.crcAttach = .none ∧ q = pduOfBytes p ∨
        P.crcAttach = .trailer ∧ ∃ body, checkTrailer P.crc p (le16 p 1).toNat = .good body ∧ q = pduOfBytes body) →
      ((∀ c, P.codes.code c ≠ q.cmd) → (pduRecord P p).status = .unknown) ∧
      ∀ c, P.codes.code c = q.cmd → (pduRecord P p).status = .truncated ∨ (pduRecord P p).status = .ok) ∧
    ((pduRecord P p).warn = 0 ∨
      (pduRecord P p).warn = invalidField ∧ ((pduRecord P p).status = .ok ∨ (pduRecord P p).status = .truncated) ∨
      (pduRecord P p).warn = partialEntry ∧ (pduRecord P p).status = .ok)

/-- 60 R132: no other command than the seven listed can give a TRUNCATED record. -/
def Obligations.OnlyListedCommandsTruncate : Prop :=
  ∀ (P : Params) (c : CommandId) (q : Pdu), (commandRecord P c q).status = .truncated →
    c ∈ [CommandId.txPacket, .rxPacket, .longTxPacket, .longRxPacket, .queryDsuid, .busChange, .busState]

/-! ### The DCMD rows -/

/-- 41 R86, R93, R94, R96, R97, R98 (R83): the rows with no structured decode. -/
def Obligations.NoDecodeRowsGiveEmptyRecords : Prop :=
  (RowOf .sync .sync ∧ RowOf .devicePacket .devicePacket ∧ RowOf .rawmode .rawmode ∧ RowOf .register .register ∧
    RowOf .unregister .unregister ∧ RowOf .queryAddress .queryAddress) ∧
  ∀ q : Pdu,
    EmitsRecord (.sync q) q.len.toNat (okRec .sync q 0 .empty none) ∧
    EmitsRecord (.devicePacket q) q.len.toNat (okRec .devicePacket q 0 .empty none) ∧
    EmitsRecord (.rawmode q) q.len.toNat (okRec .rawmode q 0 .empty none) ∧
    EmitsRecord (.register q) q.len.toNat (okRec .register q 0 .empty none) ∧
    EmitsRecord (.unregister q) q.len.toNat (okRec .unregister q 0 .empty none) ∧
    EmitsRecord (.queryAddress q) q.len.toNat (okRec .queryAddress q 0 .empty none)

/-- 41 R87: PING, with or without a payload, at code 0x02. -/
def Obligations.PingGivesAnEmptyRecord : Prop :=
  (∀ q : Pdu, EmitsRecord (.ping q) q.len.toNat (okRec .ping q 0 .empty none)) ∧
    ∀ (P : Params) (len : Half) (payload : List Byte), selectCommand P ⟨0x02, len, payload⟩ = .ping ⟨0x02, len, payload⟩

/-- 41 R88, R95, R104: the rows whose response is one byte that no range limits. -/
def Obligations.ValueRowsSurfaceTheirByte : Prop :=
  OneByteRow .apiRevision .apiRevision (fun _ => 0) .revision ∧
  OneByteRow .packetfilter .packetfilter (fun _ => 0) .filterFlags ∧
  OneByteRow .restartBus .restartBus (fun _ => 0) .restartStatus

/-- 41 R101: QUERY_BUSSTATE, at code 0x23; INVALID_FIELD outside 1 to 5, the raw value surfaced. -/
def Obligations.QueryBusstateSurfacesTheState : Prop :=
  OneByteRow .queryBusstate .queryBusstate stateWarn .busStateValue ∧
    ∀ (P : Params) (len : Half) (payload : List Byte),
      selectCommand P ⟨0x23, len, payload⟩ = .queryBusstate ⟨0x23, len, payload⟩

/-- 41 R100: QUERY_DSUID in its three forms. -/
def Obligations.QueryDsuidSurfacesTheDsid : Prop :=
  RowOf .queryDsuid .queryDsuid ∧ ∀ q : Pdu,
    (q.payload = [] → EmitsRecord (.queryDsuid q) q.len.toNat (okRec .queryDsuid q 0 .empty none)) ∧
    (0 < q.payload.length → q.payload.length < 12 → EmitsRecord (.queryDsuid q) q.len.toNat (truncRec q 0)) ∧
    ∀ id rest, id.length = 12 → q.payload = id ++ rest →
      EmitsRecord (.queryDsuid q) q.len.toNat (okRec .queryDsuid q 0 (.dsid id) none)

/-- 41 R99: QUERY_DEVICES gives the whole entries in stream order and warns of trailing bytes, which it drops. -/
def Obligations.QueryDevicesSurfacesWholeEntries : Prop :=
  RowOf .queryDevices .queryDevices ∧ ∀ q : Pdu,
    (q.payload = [] → EmitsRecord (.queryDevices q) q.len.toNat (okRec .queryDevices q 0 .empty none)) ∧
    ∀ (ids : List (List Byte)) (tail : List Byte), (∀ id ∈ ids, id.length = 12) → tail.length < 12 → q.payload ≠ [] →
      q.payload = ids.flatten ++ tail →
      EmitsRecord (.queryDevices q) q.len.toNat
        (okRec .queryDevices q (if tail = [] then 0 else partialEntry) (.devices ids) none)

/-- 41 R89, R90: TX_PACKET and RX_PACKET. -/
def Obligations.ContainerRowsDecode : Prop := ContainerRow .txPacket .txPacket ∧ ContainerRow .rxPacket .rxPacket

/-- 41 R91, R92: LONG_TX_PACKET and LONG_RX_PACKET. That LONG_DATA_MAX is 8599 and not 8600 is the spec's own choice (00 R6, 92
D14), which the model follows (log entry 2). -/
def Obligations.LongPacketRowsDecode : Prop :=
  LongPacketRow .longTxPacket .longTxPacket ∧ LongPacketRow .longRxPacket .longRxPacket ∧ Config.params.longDataMax = 8599

/-- 41 R102: BUS_CHANGE; a set LEAVE_MASK bit means leave. -/
def Obligations.BusChangeDecodes : Prop :=
  BusEventRow .busChange .busChange (fun _ => 0)
    (fun h fb => .busChange h fb (fb &&& Config.params.leaveMask != 0))

/-- 41 R103: BUS_STATE. -/
def Obligations.BusStateDecodes : Prop := BusEventRow .busState .busState stateWarn .busStateEvent

/-- 41 R84: a byte outside the image of CMD_CODE selects UNKNOWN, whose record carries the raw payload. -/
def Obligations.UnknownRowCarriesThePayload : Prop :=
  ∀ q : Pdu,
    EmitsRecord (.unknown q) q.len.toNat ⟨.unknown, 0, q.cmd, .unknown q.cmd, q.len, none, some q.payload⟩ ∧
    (∀ P : Params, (∀ c, P.codes.code c ≠ q.cmd) → selectCommand P q = .unknown q) ∧
    ∀ P : Params, q.cmd = 0x99 → selectCommand P q = .unknown q

/-- 40 R73: a length field below 3 takes precedence over every command byte, consumes three bytes and is reported in-band. -/
def Obligations.CorruptHeaderConsumesThreeBytes : Prop :=
  ∀ (cmd : Byte) (len : Half), len.toNat < 3 →
    (∀ (P : Params) (rest : List Byte),
      decodePdu P (pduBytes cmd len [] ++ rest) = .ok (.corruptHeader cmd len, rest)) ∧
    EmitsRecord (.corruptHeader cmd len) 3 ⟨.corruptLength, 0, cmd, .unknown cmd, len, none, some []⟩

/-! ### The structures -/

/-- 42 R116 (which the spec marks as derived): the round trip of a Container, under every parameter without a trailer. -/
def Obligations.ContainerRoundTrip : Prop :=
  ∀ (P : Params) (dst src : List Byte) (ctype cflags : Word) (tid : Byte) (data : List Byte),
    P.crcAttach = .none → IdsFit dst src → data.length ≤ 127 →
    pduRecord P (pduBytes (P.codes.code .txPacket) (BitVec.ofNat 16 (47 + data.length))
        (containerHeadBytes dst src ctype cflags (BitVec.ofNat 8 data.length) tid ++ data)) =
      ⟨.ok, 0, P.codes.code .txPacket, .known .txPacket, BitVec.ofNat 16 (47 + data.length),
        some (.containerHdr ⟨dst, src, ctype, cflags, BitVec.ofNat 8 data.length, tid⟩), some data⟩

/-- 42 R117 (which the spec marks as derived): the round trip of a LongPacket, for both values of LONG_DATA_MAX and every pad. -/
def Obligations.LongPacketRoundTrip : Prop :=
  ∀ (P : Params) (dst src : List Byte) (pad : Half) (ctype : Word) (tid : Byte) (data : List Byte),
    P.crcAttach = .none → IdsFit dst src → data.length ≤ P.longDataMax →
    pduRecord P (pduBytes (P.codes.code .longTxPacket) (BitVec.ofNat 16 (46 + data.length))
        (longHeadBytes dst src pad ctype (BitVec.ofNat 16 data.length) tid ++ data)) =
      ⟨.ok, 0, P.codes.code .longTxPacket, .known .longTxPacket, BitVec.ofNat 16 (46 + data.length),
        some (.longHdr ⟨dst, src, ctype, BitVec.ofNat 16 data.length, tid⟩), some data⟩

/-- 42 R111, 30 R55: no record field depends on the pad: two LongPackets that differ in it only, and decode, decode alike. (A
TRUNCATED record shows the raw payload, pad included: 60 R132.) -/
def Obligations.PadIsIgnored : Prop :=
  ∀ (P : Params) (record : Pdu → Record) (cmd : Byte) (len : Half) (dst src : List Byte) (pad pad' : Half) (rest : List Byte),
    record = longTxPacketRecord P ∨ record = longRxPacketRecord P → IdsFit dst src →
    (record ⟨cmd, len, dst ++ src ++ leBytes 2 pad.toNat ++ rest⟩).status = .ok →
    record ⟨cmd, len, dst ++ src ++ leBytes 2 pad'.toNat ++ rest⟩ =
      record ⟨cmd, len, dst ++ src ++ leBytes 2 pad.toNat ++ rest⟩

/-! ### CRC, identifiers, parameters -/

/-- 43 R122 (which the spec marks as general knowledge; log entry 14): the checker on bit vectors is the pseudocode on unbounded
naturals, and gives the three check values. -/
def Obligations.CrcMatchesItsPseudocode : Prop :=
  (∀ (C : CrcParams) (bs : List Byte),
    (crc C bs).toNat = crcNat C.width.bits C.poly.toNat C.init.toNat C.xorout.toNat C.refin C.refout bs) ∧
  (crc ⟨.w32, 0x04C11DB7#32, 0xFFFFFFFF#32, 0xFFFFFFFF#32, true, true⟩
    [0x31, 0x32, 0x33, 0x34, 0x35, 0x36, 0x37, 0x38, 0x39]).toNat = 0xCBF43926 ∧
  (crc ⟨.w16, 0x8005#16, 0#16, 0#16, true, true⟩
    [0x31, 0x32, 0x33, 0x34, 0x35, 0x36, 0x37, 0x38, 0x39]).toNat = 0xBB3D ∧
  (crc ⟨.w16, 0x1021#16, 0xFFFF#16, 0#16, false, false⟩
    [0x31, 0x32, 0x33, 0x34, 0x35, 0x36, 0x37, 0x38, 0x39]).toNat = 0x29B1

/-- 43 R125: the CRC stage: no room for the trailer, a trailer that disagrees, a good one (whose body decodes with the declared
length still reported). -/
def Obligations.CrcStageChecksTheTrailer : Prop :=
  ∀ (P : Params) (p : List Byte), P.crcAttach = .trailer → 3 ≤ (le16 p 1).toNat → p.length = (le16 p 1).toNat →
    (p.length - 3 < P.crc.width.bytes →
      pduRecord P p = ⟨.truncated, 0, byteAt p 0, .unknown (byteAt p 0), le16 p 1, none, some (p.drop 3)⟩) ∧
    ∀ body trailer, p = body ++ trailer → trailer.length = P.crc.width.bytes → 3 ≤ body.length →
      ((crc P.crc body).toNat ≠ leNat trailer →
        pduRecord P p = ⟨.crcError, 0, byteAt p 0, .unknown (byteAt p 0), le16 p 1, none, some (p.drop 3)⟩) ∧
      ((crc P.crc body).toNat = leNat trailer →
        pduRecord P p = decodeBody P (pduOfBytes body) ∧ (decodeBody P (pduOfBytes body)).rawLength = le16 p 1)

/-- 43 R123: without a trailer no CRC is checked, and no record is a CRC_ERROR. -/
def Obligations.NoCrcWithoutATrailer : Prop :=
  ∀ (P : Params) (p : List Byte), P.crcAttach = .none →
    (pduRecord P p).status ≠ .crcError ∧
      (3 ≤ (le16 p 1).toNat → pduRecord P p = decodeBody P (pduOfBytes p))

/-- 43 R118, R119: equality of identifiers, and the sentinels of both lengths. -/
def Obligations.IdentifierClasses : Prop :=
  (∀ a b : List Byte, idEq a b = true ↔ a = b) ∧
  ∀ (n : Nat) (a : List Byte), (n = 17 ∨ n = 12) → a.length = n →
    (idClass a = .null ↔ a = List.replicate n 0x00) ∧ (idClass a = .broadcast ↔ a = List.replicate n 0xFF) ∧
    (idClass a = .ordinary ↔ a ≠ List.replicate n 0x00 ∧ a ≠ List.replicate n 0xFF)

/-- 43 R120: the classes of a BusAddress. -/
def Obligations.AddressClasses : Prop :=
  ∀ (a : Byte) (atDest : Bool),
    addrClass a atDest =
      if a.toNat = 0 then .master else if a.toNat ≤ 62 then .slave else if a.toNat = 63 then .intermediate
      else if a.toNat = 255 ∧ atDest = true then .broadcast else .invalid

/-- 00 R7: every command-code map the model admits, the machine's own among them, meets the three constraints. -/
def Obligations.ParametersAreAdmissible : Prop :=
  ∀ P : Params,
    (∀ c d, P.codes.code c = P.codes.code d → c = d) ∧ P.codes.code .ping = 0x02 ∧ P.codes.code .queryBusstate = 0x23 ∧
    ∀ c, P.codes.code c ≠ 0x99

/-- 00 R6: the other parameters of every set are in the ranges of the table, and the machine's own decided ones have the values
the spec chose (92 D14, D19; log entry 2). -/
def Obligations.ParameterRangesHold : Prop :=
  (∀ P : Params,
    1 ≤ P.outDepth ∧ P.outDepth ≤ 65535 ∧ (∃ i < 8, ∀ j, P.leaveMask.getLsbD j = decide (j = i)) ∧
    (P.longDataMax = 8599 ∨ P.longDataMax = 8600) ∧
    (P.crc.width.bits = 8 ∨ P.crc.width.bits = 16 ∨ P.crc.width.bits = 32)) ∧
  Config.pduHdr = 3 ∧ Config.bufCap = 65535 ∧ Config.containerDataMax = 127 ∧ Config.params.longDataMax = 8599 ∧
  Config.params.crcAttach = .none

/-! ### The HOST rows -/

/-- 40 R68, 70 R150: PUSH. -/
def Obligations.PushAppendsOneByte : Prop :=
  ∀ (b : Byte) (s : State),
    (complete s.buf = false → exec (.push b) s = .next { s with buf := s.buf ++ [b] }) ∧
    (complete s.buf = true → exec (.push b) s = .next s) ∧
    (∀ v : Word, v.setWidth 8 = b → exec (.wr 0x10 v) s = exec (.push b) s) ∧
    (BufferFits s.buf → complete s.buf = false → (s.buf ++ [b]).length ≤ 65535)

/-- 40 R69, with the model's convention for the bytes left (log entry 8): CHUNK pushes its first byte as PUSH does and leaves the
others as the host's next operation; an empty one changes nothing. -/
def Obligations.ChunkPushesItsFirstByte : Prop :=
  ∀ s : State, exec (.chunk []) s = .next s ∧
    ∀ b rest,
      (complete s.buf = false →
        exec (.chunk (b :: rest)) s =
          .next { s with buf := s.buf ++ [b], hostOps := if rest = [] then s.hostOps else .chunk rest :: s.hostOps }) ∧
      (complete s.buf = true → exec (.chunk (b :: rest)) s = .next s)

/-- 40 R69: a chunk is the sequence of the PUSHes of its bytes: as many steps as it has bytes push them all, as long as none but
the last completes a PDU. -/
def Obligations.ChunkPushesAllItsBytes : Prop :=
  ∀ (s : State) (bs : List Byte) (ops : List Transaction), s.turns = [] → s.hostOps = .chunk bs :: ops → bs ≠ [] →
    (∀ k < bs.length, complete (s.buf ++ bs.take k) = false) →
    runSteps bs.length s = .next { s with buf := s.buf ++ bs, hostOps := ops }

/-- 40 R71: EMIT. -/
def Obligations.EmitExtractsOnePdu : Prop :=
  ∀ s : State,
    (complete s.buf = true → s.outq.length < Config.params.outDepth →
      exec .emit s = .next { s with
        buf := s.buf.drop (pduSize s.buf)
        outq := s.outq ++ [if (le16 s.buf 1).toNat < 3 then ⟨.corruptLength, 0, byteAt s.buf 0, .unknown (byteAt s.buf 0),
            le16 s.buf 1, none, some []⟩
          else decodeRecord Config.params (s.buf.take (pduSize s.buf))] }) ∧
    (¬ (complete s.buf = true ∧ s.outq.length < Config.params.outDepth) → exec .emit s = .next s)

/-- 40 R75: POP hands the head record to the host; with none it has no step (70 R151). -/
def Obligations.PopTakesTheHead : Prop :=
  ∀ s : State,
    (∀ r rest, s.outq = r :: rest → exec .pop s = .next { s with outq := rest, popped := s.popped ++ [r] }) ∧
    (s.outq = [] → exec .pop s = .next s)

/-- 40 R76, 70 R145: STREAM_RESET empties the buffer alone; RESET the buffer and the queue; each by its write to CTRL too. -/
def Obligations.ResetsEmptyTheEngine : Prop :=
  ∀ s : State,
    exec .streamReset s = .next { s with buf := [] } ∧ exec .reset s = .next { s with buf := [], outq := [] } ∧
    ∀ v : Word,
      (v.getLsbD 1 = false → v.getLsbD 0 = true → exec (.wr 0x00 v) s = .next { s with buf := [] }) ∧
      (v.getLsbD 1 = true → exec (.wr 0x00 v) s = .next { s with buf := [], outq := [] })

/-- 40 R77, 20 R41: RD returns the register's value (into the host's `reads`, log entry 4) and changes nothing else. -/
def Obligations.ReadReturnsTheRegister : Prop :=
  ∀ (off : Byte) (s : State),
    (off.toNat % 4 = 0 → exec (.rd off) s = .next { s with reads := s.reads ++ [csrRead Config.params s off] }) ∧
    (off.toNat % 4 ≠ 0 → exec (.rd off) s = .refused (.csrUnaligned off))

/-- 40 R78, 10 R26: WR; SOFT_RESET subsumes STREAM_RESET, other bits and other registers are ignored. -/
def Obligations.WriteActsOnCtrlAndInData : Prop :=
  ∀ (v : Word) (s : State),
    (v.getLsbD 1 = true → exec (.wr 0x00 v) s = exec .reset s) ∧
    (v.getLsbD 1 = false → v.getLsbD 0 = true → exec (.wr 0x00 v) s = exec .streamReset s) ∧
    (v.getLsbD 1 = false → v.getLsbD 0 = false → exec (.wr 0x00 v) s = .next s) ∧
    exec (.wr 0x10 v) s = exec (.push (v.setWidth 8)) s ∧
    ∀ off : Byte, off ≠ 0x00 → off ≠ 0x10 →
      (off.toNat % 4 = 0 → exec (.wr off v) s = .next s) ∧
      (off.toNat % 4 ≠ 0 → exec (.wr off v) s = .refused (.csrUnaligned off))

/-- 10 R27: STATUS, bit by bit; a write is ignored; 1 at reset. -/
def Obligations.StatusRegisterBits : Prop :=
  ∀ (P : Params) (s : State),
    (∀ i, (csrRead P s 0x04).getLsbD i =
      (decide (i = 0) && !complete s.buf || decide (i = 1) && decide (0 < s.outq.length) ||
        decide (i = 2) && decide (s.outq.length = P.outDepth) || decide (i = 3) && complete s.buf)) ∧
    (∀ v, exec (.wr 0x04 v) s = .next s) ∧ csrRead P State.reset 0x04 = 0x00000001

/-- 10 R28, R29: the levels are the lengths, in bounds the invariant gives; writes are ignored; 0 at reset. -/
def Obligations.LevelRegistersAreLengths : Prop :=
  ∀ (P : Params) (s : State),
    (s.buf.length ≤ 65535 → (csrRead P s 0x08).toNat = s.buf.length) ∧
    (s.outq.length ≤ P.outDepth → (csrRead P s 0x0C).toNat = s.outq.length) ∧
    (∀ i, 17 ≤ i → (csrRead P s 0x08).getLsbD i = false) ∧ (∀ i, 16 ≤ i → (csrRead P s 0x0C).getLsbD i = false) ∧
    (∀ v, exec (.wr 0x08 v) s = .next s ∧ exec (.wr 0x0C v) s = .next s) ∧
    csrRead P State.reset 0x08 = 0 ∧ csrRead P State.reset 0x0C = 0

/-- 10 R26, R30, R31: CTRL, IN_DATA and the reserved registers read 0; the reserved ones ignore writes. -/
def Obligations.OtherRegistersReadZero : Prop :=
  ∀ (P : Params) (s : State),
    csrRead P s 0x00 = 0 ∧ csrRead P s 0x10 = 0 ∧
    ∀ off : Byte, 0x14 ≤ off.toNat → off.toNat % 4 = 0 → csrRead P s off = 0 ∧ ∀ v, exec (.wr off v) s = .next s
end

