-- ==== Sys2Proof/Laws/Bytes.lean ====
section
/-! SUPPORT. Byte sequences and little-endian numbers. -/

namespace Sys2Proof

@[simp] theorem leBytes_length (n v : Nat) : (leBytes n v).length = n := by
  induction n generalizing v with
  | zero => rfl
  | succ n ih => simp [leBytes, ih]

theorem leNat_lt (s : List Byte) : leNat s < 256 ^ s.length := by
  induction s with
  | nil => simp [leNat]
  | cons b s ih =>
    have hb := b.isLt
    simp only [leNat, List.length_cons, pow_succ]
    omega

@[simp] theorem leNat_leBytes (n v : Nat) : leNat (leBytes n v) = v % 256 ^ n := by
  induction n generalizing v with
  | zero => simp [leBytes, leNat, Nat.mod_one]
  | succ n ih =>
    simp only [leBytes, leNat, ih, BitVec.toNat_ofNat, Nat.reducePow]
    rw [Nat.pow_succ, Nat.mul_comm (256 ^ n) 256, Nat.mod_mul]

theorem leBytes_leNat (s : List Byte) : leBytes s.length (leNat s) = s := by
  induction s with
  | nil => rfl
  | cons b s ih =>
    have hb := b.isLt
    have hd : (b.toNat + 256 * leNat s) / 256 = leNat s := by omega
    have hm : BitVec.ofNat 8 (b.toNat + 256 * leNat s) = b := by
      apply BitVec.eq_of_toNat_eq
      simp only [BitVec.toNat_ofNat, Nat.reducePow]
      omega
    simp only [leNat, List.length_cons, leBytes, hd, hm, ih]

@[simp] theorem slice_length (s : List Byte) (a n : Nat) : (slice s a n).length = min n (s.length - a) := by
  simp [slice]

/-- A range that starts after the first part of an append lies in the second part. -/
theorem slice_append_right (s t : List Byte) (a n k : Nat) (h : s.length = k) : slice (s ++ t) (k + a) n = slice t a n := by
  subst h
  simp [slice, List.drop_append, List.drop_eq_nil_of_le]

/-- A range that is exactly the head of an append. -/
theorem slice_append_left (s t : List Byte) (n : Nat) (h : s.length = n) : slice (s ++ t) 0 n = s := by
  subst h
  simp [slice]

theorem byteAt_append_right (s t : List Byte) (a k : Nat) (h : s.length = k) : byteAt (s ++ t) (k + a) = byteAt t a := by
  subst h
  simp [byteAt, List.getD_eq_getElem?_getD, List.getElem?_append_right]

@[simp] theorem byteAt_cons_zero (b : Byte) (s : List Byte) : byteAt (b :: s) 0 = b := rfl

@[simp] theorem byteAt_cons_succ (b : Byte) (s : List Byte) (i : Nat) : byteAt (b :: s) (i + 1) = byteAt s i := rfl

/-- Reading back a 16-bit number written little-endian at `k`. -/
theorem le16_append_right (s t : List Byte) (v : Half) (k : Nat) (h : s.length = k) :
    le16 (s ++ (leBytes 2 v.toNat ++ t)) k = v := by
  have e := leNat_leBytes 2 v.toNat
  have h0 := byteAt_append_right s (leBytes 2 v.toNat ++ t) 0 k h
  have h1 := byteAt_append_right s (leBytes 2 v.toNat ++ t) 1 k h
  rw [Nat.add_zero] at h0
  simp only [le16, h0, h1]
  have hv := v.isLt
  simp only [leBytes, List.cons_append, byteAt_cons_zero, byteAt_cons_succ] at e ⊢
  rw [e, Nat.mod_eq_of_lt (by omega)]
  simp

/-- Reading back a 32-bit number written little-endian at `k`. -/
theorem le32_append_right (s t : List Byte) (v : Word) (k : Nat) (h : s.length = k) :
    le32 (s ++ (leBytes 4 v.toNat ++ t)) k = v := by
  have e := leNat_leBytes 4 v.toNat
  have h0 := byteAt_append_right s (leBytes 4 v.toNat ++ t) 0 k h
  have h1 := byteAt_append_right s (leBytes 4 v.toNat ++ t) 1 k h
  have h2 := byteAt_append_right s (leBytes 4 v.toNat ++ t) 2 k h
  have h3 := byteAt_append_right s (leBytes 4 v.toNat ++ t) 3 k h
  rw [Nat.add_zero] at h0
  simp only [le32, h0, h1, h2, h3]
  have hv := v.isLt
  simp only [leBytes, List.cons_append, byteAt_cons_zero, byteAt_cons_succ] at e ⊢
  rw [e, Nat.mod_eq_of_lt (by omega)]
  simp

/-- `le16` is the shift and or of 00 R9. -/
theorem le16_eq_shift_or (s : List Byte) (i : Nat) :
    le16 s i = (byteAt s i).setWidth 16 ||| ((byteAt s (i + 1)).setWidth 16 <<< 8) := by
  apply BitVec.eq_of_toNat_eq
  have h0 := (byteAt s i).isLt
  have h1 := (byteAt s (i + 1)).isLt
  have e : (byteAt s i).toNat ||| (byteAt s (i + 1)).toNat <<< 8 = (byteAt s (i + 1)).toNat <<< 8 + (byteAt s i).toNat := by
    rw [Nat.or_comm, Nat.shiftLeft_add_eq_or_of_lt h0]
  simp only [le16, leNat, BitVec.toNat_ofNat, BitVec.toNat_or, BitVec.toNat_shiftLeft, BitVec.toNat_setWidth]
  rw [Nat.mod_eq_of_lt (a := (byteAt s i).toNat) (by omega), Nat.mod_eq_of_lt (a := (byteAt s (i + 1)).toNat) (by omega),
    Nat.mod_eq_of_lt (a := (byteAt s (i + 1)).toNat <<< 8) (by simp only [Nat.shiftLeft_eq]; omega), e]
  simp only [Nat.shiftLeft_eq]
  omega

@[simp] theorem pduBytes_length (cmd : Byte) (len : Half) (payload : List Byte) :
    (pduBytes cmd len payload).length = 3 + payload.length := by
  simp [pduBytes]; omega

@[simp] theorem byteAt_pduBytes (cmd : Byte) (len : Half) (payload : List Byte) : byteAt (pduBytes cmd len payload) 0 = cmd := rfl

@[simp] theorem le16_pduBytes (cmd : Byte) (len : Half) (payload : List Byte) : le16 (pduBytes cmd len payload) 1 = len :=
  le16_append_right [cmd] payload len 1 rfl

@[simp] theorem drop_pduBytes (cmd : Byte) (len : Half) (payload : List Byte) : (pduBytes cmd len payload).drop 3 = payload := rfl

theorem pduBytes_append (cmd : Byte) (len : Half) (payload t : List Byte) :
    pduBytes cmd len payload ++ t = pduBytes cmd len (payload ++ t) := by
  simp [pduBytes]

/-- Three or more bytes are a header and a payload. -/
theorem pduBytes_of_length (p : List Byte) (h : 3 ≤ p.length) : pduBytes (byteAt p 0) (le16 p 1) (p.drop 3) = p := by
  match p, h with
  | a :: b :: c :: t, _ =>
    have e : leBytes 2 (le16 (a :: b :: c :: t) 1).toNat = [b, c] := by
      have := leBytes_leNat [b, c]
      have hl := leNat_lt [b, c]
      simp only [List.length_cons, List.length_nil] at this hl
      simp only [le16, byteAt_cons_succ, byteAt_cons_zero, BitVec.toNat_ofNat]
      rw [Nat.mod_eq_of_lt (by simpa using hl)]
      exact this
    simp only [pduBytes, byteAt_cons_zero, e]
    rfl

/-- Bytes at or before index 2 do not see what is appended to three or more. -/
theorem byteAt_append_left (s t : List Byte) (i : Nat) (h : i < s.length) : byteAt (s ++ t) i = byteAt s i := by
  simp [byteAt, List.getD_eq_getElem?_getD, List.getElem?_append_left h]

theorem le16_append_left (s t : List Byte) (i : Nat) (h : i + 1 < s.length) : le16 (s ++ t) i = le16 s i := by
  simp only [le16, byteAt_append_left s t i (by omega), byteAt_append_left s t (i + 1) h]

theorem le16_take (s : List Byte) (i n : Nat) (h : i + 1 < n) (hn : n ≤ s.length) : le16 (s.take n) i = le16 s i := by
  conv_rhs => rw [← List.take_append_drop n s]
  exact (le16_append_left (s.take n) (s.drop n) i (by simp; omega)).symm

theorem byteAt_take (s : List Byte) (i n : Nat) (h : i < n) (hn : n ≤ s.length) : byteAt (s.take n) i = byteAt s i := by
  conv_rhs => rw [← List.take_append_drop n s]
  exact (byteAt_append_left (s.take n) (s.drop n) i (by simp; omega)).symm

end Sys2Proof
end

