-- ==== Sys2Proof/Laws/Decode.lean ====
section
/-! SUPPORT. The decoder: the dispatch table, complete PDUs, PDUs and their bytes, the CRC trailer. -/

namespace Sys2Proof

theorem CommandId.mem_all (c : CommandId) : c ∈ CommandId.all := by cases c <;> decide

/-- The dispatch table is `CMD_CODE` read backwards (41 R81); the bytes looked at first change nothing. -/
theorem lookup_eq_some_iff (P : Params) (b : Byte) (c : CommandId) : lookup P b = some c ↔ P.codes.code c = b := by
  have hp := P.codes.ping
  have hq := P.codes.queryBusstate
  unfold lookup
  split_ifs with h1 h2 h3
  · subst h1
    exact ⟨fun h => by cases h; exact hp, fun h => by rw [P.codes.injective c .ping (h.trans hp.symm)]⟩
  · subst h2
    exact ⟨fun h => by cases h; exact hq, fun h => by rw [P.codes.injective c .queryBusstate (h.trans hq.symm)]⟩
  · subst h3
    exact ⟨nofun, fun h => absurd h (P.codes.not99 c)⟩
  · constructor
    · intro h
      simpa using List.find?_some h
    · intro h
      cases hf : CommandId.all.find? (fun c => P.codes.code c == b) with
      | none => simpa [h] using List.find?_eq_none.mp hf c (CommandId.mem_all c)
      | some d =>
        have hd : P.codes.code d = b := by simpa using List.find?_some hf
        rw [P.codes.injective d c (hd.trans h.symm)]

@[simp] theorem lookup_code (P : Params) (c : CommandId) : lookup P (P.codes.code c) = some c :=
  (lookup_eq_some_iff P _ c).2 rfl

theorem lookup_eq_none_iff (P : Params) (b : Byte) : lookup P b = none ↔ ∀ c, P.codes.code c ≠ b := by
  simp [Option.eq_none_iff_forall_ne_some, lookup_eq_some_iff]

theorem three_le_pduSize (buf : List Byte) : 3 ≤ pduSize buf := Nat.le_max_left _ _

theorem complete_iff (buf : List Byte) : complete buf = true ↔ 3 ≤ buf.length ∧ pduSize buf ≤ buf.length := by
  simp [complete]

theorem pduSize_append (buf t : List Byte) (h : 3 ≤ buf.length) : pduSize (buf ++ t) = pduSize buf := by
  simp only [pduSize, hdrLen, le16_append_left buf t 1 (by omega)]

theorem complete_append (buf t : List Byte) (h : complete buf = true) : complete (buf ++ t) = true := by
  rw [complete_iff] at h ⊢
  rw [pduSize_append buf t h.1, List.length_append]
  omega

@[simp] theorem pduSize_pduBytes (cmd : Byte) (len : Half) (payload : List Byte) :
    pduSize (pduBytes cmd len payload) = max 3 len.toNat := by
  simp [pduSize, hdrLen]

@[simp] theorem Pdu.bytes_length (q : Pdu) : q.bytes.length = q.size := by simp [Pdu.bytes, Pdu.size]

@[simp] theorem pduOfBytes_bytes (q : Pdu) : pduOfBytes q.bytes = q := by simp [Pdu.bytes, pduOfBytes]

theorem bytes_pduOfBytes (p : List Byte) (h : 3 ≤ p.length) : (pduOfBytes p).bytes = p := pduBytes_of_length p h

theorem commandInstr_pdu (c : CommandId) (q : Pdu) : (commandInstr c q).pdu? = some q := by cases c <;> rfl

theorem selectCommand_pdu (P : Params) (q : Pdu) : (selectCommand P q).pdu? = some q := by
  unfold selectCommand
  split
  · rfl
  · exact commandInstr_pdu _ _

/-- The stream bytes of an instruction that carries a PDU. -/
theorem encodePdu_of_pdu (P : Params) {i : Instr} {q : Pdu} (h : i.pdu? = some q) : encodePdu P i = framedBytes P q := by
  cases i <;> simp_all [Instr.pdu?, encodePdu]

/-- Well-formedness of an instruction that carries a PDU: it is the row the table selects, and the PDU is framed. -/
theorem wellFormed_of_pdu (P : Params) {i : Instr} {q : Pdu} (h : i.pdu? = some q) :
    WellFormed P i ↔ selectCommand P q = i ∧ q.framed P = true := by
  have key : ∀ c, (q.cmd = P.codes.code c ↔ lookup P q.cmd = some c) := fun c => by
    rw [lookup_eq_some_iff, eq_comm]
  have inst : ∀ c, selectCommand P q = commandInstr c q ↔ lookup P q.cmd = some c := fun c => by
    unfold selectCommand
    cases hl : lookup P q.cmd with
    | none => cases c <;> simp [commandInstr]
    | some d => cases c <;> cases d <;> simp [commandInstr]
  have unk : selectCommand P q = .unknown q ↔ lookup P q.cmd = none := by
    unfold selectCommand
    cases hl : lookup P q.cmd with
    | none => simp
    | some d => cases d <;> simp [commandInstr]
  cases i <;> simp only [Instr.pdu?, Option.some.injEq, reduceCtorEq] at h <;> subst h
  case unknown =>
    rw [unk, lookup_eq_none_iff]
    simp [WellFormed, wellFormed, CommandId.mem_all]
  all_goals
    simp only [WellFormed, wellFormed, Pdu.isFor, Bool.and_eq_true, beq_iff_eq, key]
    rw [← inst]
    rfl

theorem trailerOf_length (P : Params) (bs : List Byte) : (trailerOf P bs).length = P.trailerBytes := by
  unfold trailerOf Params.trailerBytes
  cases P.crcAttach <;> simp [crcTrailer]

theorem framedBytes_length (P : Params) (q : Pdu) : (framedBytes P q).length = q.size + P.trailerBytes := by
  simp [framedBytes, trailerOf_length]

theorem crc_lt (C : CrcParams) (bs : List Byte) : (crc C bs).toNat < 256 ^ C.width.bytes := by
  have h := (crc C bs).isLt
  simpa [CrcWidth.bits, pow_mul] using h

/-- A PDU with its own CRC passes the check, and its body is what the CRC covers (43 R125). -/
theorem checkTrailer_append (C : CrcParams) (bs : List Byte) (h : 3 ≤ bs.length) :
    checkTrailer C (bs ++ crcTrailer C bs) (bs.length + C.width.bytes) = .good bs := by
  have hs : slice (bs ++ crcTrailer C bs) bs.length C.width.bytes = crcTrailer C bs := by
    simp [slice, crcTrailer, List.take_of_length_le]
  have ht : (bs ++ crcTrailer C bs).take bs.length = bs := by simp
  have hl : leNat (crcTrailer C bs) = (crc C bs).toNat := by
    rw [crcTrailer, leNat_leBytes, Nat.mod_eq_of_lt (crc_lt C bs)]
  simp only [checkTrailer, Nat.add_sub_cancel, hs, ht, hl]
  rw [if_neg (by omega)]
  simp

/-- The bytes of a good PDU are its body and the body's CRC. -/
theorem append_of_checkTrailer_good {C : CrcParams} {p body : List Byte} {L : Nat} (hL : p.length = L)
    (h3 : 3 ≤ L) (h : checkTrailer C p L = .good body) :
    body ++ crcTrailer C body = p ∧ body.length + C.width.bytes = L ∧ 3 ≤ body.length := by
  unfold checkTrailer at h
  simp only at h
  split at h
  · cases h
  · rename_i hn
    split at h
    · cases h
    · rename_i hc
      simp only [not_not] at hc
      cases h
      have hl : (slice p (L - C.width.bytes) C.width.bytes).length = C.width.bytes := by
        rw [slice_length]; omega
      have hd : slice p (L - C.width.bytes) C.width.bytes = p.drop (L - C.width.bytes) := by
        simp only [slice]
        exact List.take_of_length_le (by rw [List.length_drop]; omega)
      refine ⟨?_, ?_, ?_⟩
      · rw [crcTrailer, hc]
        have := leBytes_leNat (slice p (L - C.width.bytes) C.width.bytes)
        rw [hl] at this
        rw [this, hd, List.take_append_drop]
      · rw [List.length_take]; omega
      · rw [List.length_take]; omega

end Sys2Proof
end

