-- ==== Sys2Proof/Laws/State.lean ====
section
/-! SUPPORT. One lemma per field per update of `State`, so that no proof unfolds an update. -/

namespace Sys2Proof.Machine

@[simp] theorem State.withBuf_buf (s : State) (v : List Byte) : (s.withBuf v).buf = v := rfl

@[simp] theorem State.withBuf_outq (s : State) (v : List Byte) : (s.withBuf v).outq = s.outq := rfl

@[simp] theorem State.withBuf_hostOps (s : State) (v : List Byte) : (s.withBuf v).hostOps = s.hostOps := rfl

@[simp] theorem State.withBuf_turns (s : State) (v : List Byte) : (s.withBuf v).turns = s.turns := rfl

@[simp] theorem State.withBuf_popped (s : State) (v : List Byte) : (s.withBuf v).popped = s.popped := rfl

@[simp] theorem State.withBuf_reads (s : State) (v : List Byte) : (s.withBuf v).reads = s.reads := rfl

@[simp] theorem State.withOutq_buf (s : State) (v : List Record) : (s.withOutq v).buf = s.buf := rfl

@[simp] theorem State.withOutq_outq (s : State) (v : List Record) : (s.withOutq v).outq = v := rfl

@[simp] theorem State.withOutq_hostOps (s : State) (v : List Record) : (s.withOutq v).hostOps = s.hostOps := rfl

@[simp] theorem State.withOutq_turns (s : State) (v : List Record) : (s.withOutq v).turns = s.turns := rfl

@[simp] theorem State.withOutq_popped (s : State) (v : List Record) : (s.withOutq v).popped = s.popped := rfl

@[simp] theorem State.withOutq_reads (s : State) (v : List Record) : (s.withOutq v).reads = s.reads := rfl

@[simp] theorem State.withHostOps_buf (s : State) (v : List Transaction) : (s.withHostOps v).buf = s.buf := rfl

@[simp] theorem State.withHostOps_outq (s : State) (v : List Transaction) : (s.withHostOps v).outq = s.outq := rfl

@[simp] theorem State.withHostOps_hostOps (s : State) (v : List Transaction) : (s.withHostOps v).hostOps = v := rfl

@[simp] theorem State.withHostOps_turns (s : State) (v : List Transaction) : (s.withHostOps v).turns = s.turns := rfl

@[simp] theorem State.withHostOps_popped (s : State) (v : List Transaction) : (s.withHostOps v).popped = s.popped := rfl

@[simp] theorem State.withHostOps_reads (s : State) (v : List Transaction) : (s.withHostOps v).reads = s.reads := rfl

@[simp] theorem State.withTurns_buf (s : State) (v : List Turn) : (s.withTurns v).buf = s.buf := rfl

@[simp] theorem State.withTurns_outq (s : State) (v : List Turn) : (s.withTurns v).outq = s.outq := rfl

@[simp] theorem State.withTurns_hostOps (s : State) (v : List Turn) : (s.withTurns v).hostOps = s.hostOps := rfl

@[simp] theorem State.withTurns_turns (s : State) (v : List Turn) : (s.withTurns v).turns = v := rfl

@[simp] theorem State.withTurns_popped (s : State) (v : List Turn) : (s.withTurns v).popped = s.popped := rfl

@[simp] theorem State.withTurns_reads (s : State) (v : List Turn) : (s.withTurns v).reads = s.reads := rfl

@[simp] theorem State.withPopped_buf (s : State) (v : List Record) : (s.withPopped v).buf = s.buf := rfl

@[simp] theorem State.withPopped_outq (s : State) (v : List Record) : (s.withPopped v).outq = s.outq := rfl

@[simp] theorem State.withPopped_hostOps (s : State) (v : List Record) : (s.withPopped v).hostOps = s.hostOps := rfl

@[simp] theorem State.withPopped_turns (s : State) (v : List Record) : (s.withPopped v).turns = s.turns := rfl

@[simp] theorem State.withPopped_popped (s : State) (v : List Record) : (s.withPopped v).popped = v := rfl

@[simp] theorem State.withPopped_reads (s : State) (v : List Record) : (s.withPopped v).reads = s.reads := rfl

@[simp] theorem State.withReads_buf (s : State) (v : List Word) : (s.withReads v).buf = s.buf := rfl

@[simp] theorem State.withReads_outq (s : State) (v : List Word) : (s.withReads v).outq = s.outq := rfl

@[simp] theorem State.withReads_hostOps (s : State) (v : List Word) : (s.withReads v).hostOps = s.hostOps := rfl

@[simp] theorem State.withReads_turns (s : State) (v : List Word) : (s.withReads v).turns = s.turns := rfl

@[simp] theorem State.withReads_popped (s : State) (v : List Word) : (s.withReads v).popped = s.popped := rfl

@[simp] theorem State.withReads_reads (s : State) (v : List Word) : (s.withReads v).reads = v := rfl

end Sys2Proof.Machine
end

