-- ==== Sys2Proof/Laws/Ops.lean ====
section
/-! SUPPORT. What the shared operations can do, once each, and what the DCMD rows have in common. -/

namespace Sys2Proof.Machine

theorem hasRoom_iff (P : Params) (s : State) : hasRoom P s = true ↔ s.outq.length < P.outDepth := by simp [hasRoom]

theorem emitEnabled_iff (P : Params) (s : State) :
    emitEnabled P s = true ↔ complete s.buf = true ∧ s.outq.length < P.outDepth := by
  simp [emitEnabled, hasRoom_iff]

/-- With room, a record is queued and `n` bytes go; nothing else changes. -/
theorem emitRecord_of_room {P : Params} {s : State} (n : Nat) (r : Record) (h : s.outq.length < P.outDepth) :
    emitRecord P n r s = .next { s with buf := s.buf.drop n, outq := s.outq ++ [r] } := by
  simp [emitRecord, (hasRoom_iff P s).2 h, State.withBuf, State.withOutq]

/-- Without room, EMIT waits. -/
theorem emitRecord_of_full {P : Params} {s : State} (n : Nat) (r : Record) (h : ¬ s.outq.length < P.outDepth) :
    emitRecord P n r s = .next s := by
  simp [emitRecord, hasRoom, h]

/-- Everything the end of an EMIT can do. -/
theorem emitRecord_next {P : Params} {s t : State} {n : Nat} {r : Record} (h : emitRecord P n r s = .next t) :
    (s.outq.length < P.outDepth ∧ t = { s with buf := s.buf.drop n, outq := s.outq ++ [r] }) ∨
      (¬ s.outq.length < P.outDepth ∧ t = s) := by
  by_cases hr : s.outq.length < P.outDepth
  · rw [emitRecord_of_room n r hr] at h
    exact .inl ⟨hr, by cases h; rfl⟩
  · rw [emitRecord_of_full n r hr] at h
    exact .inr ⟨hr, by cases h; rfl⟩

theorem pushByte_of_ready {s : State} (b : Byte) (h : complete s.buf = false) :
    pushByte b s = .next { s with buf := s.buf ++ [b] } := by
  simp [pushByte, h, State.withBuf]

theorem pushByte_of_complete {s : State} (b : Byte) (h : complete s.buf = true) : pushByte b s = .next s := by
  simp [pushByte, h]

/-- Everything a POP can do. -/
theorem popRecord_next {s t : State} (h : popRecord s = .next t) :
    (s.outq = [] ∧ t = s) ∨
      ∃ r rest, s.outq = r :: rest ∧ t = { s with outq := rest, popped := s.popped ++ [r] } := by
  unfold popRecord at h
  split at h
  · rename_i e
    cases h
    exact .inl ⟨e, rfl⟩
  · rename_i r rest e
    cases h
    exact .inr ⟨r, rest, e, rfl⟩

/-- A command's row queues the record of its rule, for its declared length (41 R85, 40 R71). -/
theorem exec_commandInstr (c : CommandId) (q : Pdu) (s : State) :
    exec (commandInstr c q) s = emitRecord Config.params q.len.toNat (commandRecord Config.params c q) s := by
  cases c <;> rfl

/-- So does the row the dispatch table selects. -/
theorem exec_selectCommand (q : Pdu) (s : State) :
    exec (selectCommand Config.params q) s =
      emitRecord Config.params q.len.toNat (decodeBody Config.params q) s := by
  unfold selectCommand decodeBody
  cases lookup Config.params q.cmd with
  | none => rfl
  | some c => exact exec_commandInstr c q s

theorem memRead_of_le {q : Pdu} {off n : Nat} (h : off + n ≤ q.size) : memRead q off n = some (slice q.bytes off n) := by
  simp [memRead, h]

theorem memRead_of_gt {q : Pdu} {off n : Nat} (h : q.size < off + n) : memRead q off n = none := by
  simp [memRead]; omega

/-- What a read gives: it passes no bound, and the bytes are the PDU's. -/
theorem memRead_eq_some {q : Pdu} {off n : Nat} {b : List Byte} (h : memRead q off n = some b) :
    off + n ≤ q.size ∧ b = slice q.bytes off n ∧ b.length = n := by
  unfold memRead at h
  split at h
  · rename_i hle
    cases h
    refine ⟨hle, rfl, ?_⟩
    rw [slice_length, Pdu.bytes_length]
    omega
  · cases h

/-- A read inside the payload, `off` bytes after the header. -/
theorem slice_bytes (q : Pdu) (off n : Nat) : slice q.bytes (3 + off) n = slice q.payload off n := by
  rw [show q.bytes = (q.cmd :: leBytes 2 q.len.toNat) ++ q.payload from rfl]
  exact slice_append_right _ _ _ _ _ (by simp)

/-- Every record of a decode is the command's OK record or the truncated record, and says which. -/
theorem decodedRecord_cases (c : CommandId) (q : Pdu) (d : Decoded) :
    (∃ w f n, d = .done w f n ∧ decodedRecord c q d = okRecord c q w f n) ∨
      (∃ w, d = .raised w ∧ decodedRecord c q d = truncatedRecord q w) := by
  cases d with
  | done w f n => exact .inl ⟨w, f, n, rfl, rfl⟩
  | raised w => exact .inr ⟨w, rfl, rfl⟩

end Sys2Proof.Machine
end

