-- ==== Sys2Proof/Laws/Operands.lean ====
section
/-! SUPPORT. The operand forms on bytes written out: what a read inside the payload gives, the headers of 42 R116 and R117,
the entries of 41 R99; and that every payload long enough has such a header. -/

namespace Sys2Proof.Machine

open Sys2Proof.Safety

theorem Pdu.size_eq (q : Pdu) : q.size = 3 + q.payload.length := rfl

/-- The request form is an empty payload (41 R82). -/
theorem isRequest_iff (q : Pdu) : isRequest q = true ↔ q.payload = [] := by
  simp [isRequest, Pdu.size, Config.pduHdr]

theorem isRequest_of_ne {q : Pdu} (h : q.payload ≠ []) : isRequest q = false := by
  rw [Bool.eq_false_iff]
  exact fun e => h ((isRequest_iff q).1 e)

/-- A read of the payload's part `b`, which stands after `a`. -/
theorem memRead_payload {q : Pdu} {a b c : List Byte} (h : q.payload = a ++ b ++ c) :
    memRead q (3 + a.length) b.length = some b := by
  rw [memRead_of_le (by rw [Pdu.size_eq, h]; simp only [List.length_append]; omega), slice_bytes, h, List.append_assoc]
  have := slice_append_right a (b ++ c) 0 b.length a.length rfl
  rw [Nat.add_zero] at this
  rw [this, slice_append_left b c _ rfl]

/-- The byte of the payload that stands after `a`. -/
theorem memByte_payload {q : Pdu} {a : List Byte} {b : Byte} {c : List Byte} (h : q.payload = a ++ b :: c) :
    memByte q (3 + a.length) = some b := by
  have := memRead_payload (q := q) (a := a) (b := [b]) (c := c) (by simpa using h)
  simp only [List.length_singleton] at this
  simp [memByte, this]

theorem containerData_of_over {q : Pdu} {h : ContainerHdr} (hl : 127 < h.length.toNat) : containerData q h = none :=
  if_pos hl

theorem containerData_of_le {q : Pdu} {h : ContainerHdr} (hl : h.length.toNat ≤ 127) :
    containerData q h = memRead q 47 h.length.toNat :=
  if_neg (Nat.not_lt.2 hl)

theorem containerWarn_eq (h : ContainerHdr) : containerWarn h = lengthWarn h.length := rfl

theorem lengthWarn_of_over {l : Byte} (h : 127 < l.toNat) : lengthWarn l = invalidField := if_pos h

theorem lengthWarn_of_le {l : Byte} (h : l.toNat ≤ 127) : lengthWarn l = noWarn := if_neg (Nat.not_lt.2 h)

theorem containerDataByte_of_le {q : Pdu} {h : ContainerHdr} {i : Nat} (hl : h.length.toNat ≤ i) :
    containerDataByte q h i = none :=
  if_pos hl

theorem containerDataByte_of_lt {q : Pdu} {h : ContainerHdr} {i : Nat} (hl : i < h.length.toNat) :
    containerDataByte q h i = memByte q (47 + i) :=
  if_neg (Nat.not_le.2 hl)

theorem longData_of_over {P : Params} {q : Pdu} {h : LongHdr} (hl : P.longDataMax < h.length.toNat) :
    longData P q h = none :=
  if_pos hl

theorem longData_of_le {P : Params} {q : Pdu} {h : LongHdr} (hl : h.length.toNat ≤ P.longDataMax) :
    longData P q h = memRead q 46 h.length.toNat :=
  if_neg (Nat.not_lt.2 hl)

theorem longWarn_of_over {P : Params} {h : LongHdr} (hl : P.longDataMax < h.length.toNat) : longWarn P h = invalidField :=
  if_pos hl

theorem longWarn_of_le {P : Params} {h : LongHdr} (hl : h.length.toNat ≤ P.longDataMax) : longWarn P h = noWarn :=
  if_neg (Nat.not_lt.2 hl)

/-- The check of a BusState byte is its range 1 to 5 (30 R60). -/
theorem busStateWarn_eq (b : Byte) : busStateWarn b = stateWarn b := by
  revert b; decide

@[simp] theorem containerHeadBytes_length {dst src : List Byte} (h : IdsFit dst src) (ctype cflags : Word)
    (length tid : Byte) : (containerHeadBytes dst src ctype cflags length tid).length = 44 := by
  simp [containerHeadBytes, h.1, h.2]

@[simp] theorem longHeadBytes_length {dst src : List Byte} (h : IdsFit dst src) (pad : Half) (ctype : Word) (length : Half)
    (tid : Byte) : (longHeadBytes dst src pad ctype length tid).length = 43 := by
  simp [longHeadBytes, h.1, h.2]

/-- The fields of a Container header are read back from its bytes (30 R52). -/
theorem containerFields_head {dst src : List Byte} (h : IdsFit dst src) (ctype cflags : Word) (length tid : Byte) :
    containerFields (containerHeadBytes dst src ctype cflags length tid) = ⟨dst, src, ctype, cflags, length, tid⟩ := by
  obtain ⟨hd, hs⟩ := h
  have e34 : (dst ++ src).length = 34 := by simp [hd, hs]
  have e38 : (dst ++ src ++ leBytes 4 ctype.toNat).length = 38 := by simp [hd, hs]
  have e42 : (dst ++ src ++ leBytes 4 ctype.toNat ++ leBytes 4 cflags.toNat).length = 42 := by simp [hd, hs]
  have h0 : slice (containerHeadBytes dst src ctype cflags length tid) 0 17 = dst := by
    simp only [containerHeadBytes, List.append_assoc]
    exact slice_append_left _ _ _ hd
  have h1 : slice (containerHeadBytes dst src ctype cflags length tid) 17 17 = src := by
    simp only [containerHeadBytes, List.append_assoc]
    rw [show (17 : Nat) = 17 + 0 from rfl, slice_append_right _ _ _ _ _ hd]
    exact slice_append_left _ _ _ hs
  have h2 : le32 (containerHeadBytes dst src ctype cflags length tid) 34 = ctype := by
    simp only [containerHeadBytes]
    rw [List.append_assoc, List.append_assoc]
    exact le32_append_right _ _ _ _ e34
  have h3 : le32 (containerHeadBytes dst src ctype cflags length tid) 38 = cflags := by
    simp only [containerHeadBytes]
    rw [List.append_assoc]
    exact le32_append_right _ _ _ _ e38
  have h4 := byteAt_append_right (dst ++ src ++ leBytes 4 ctype.toNat ++ leBytes 4 cflags.toNat) [length, tid] 0 42 e42
  have h5 := byteAt_append_right (dst ++ src ++ leBytes 4 ctype.toNat ++ leBytes 4 cflags.toNat) [length, tid] 1 42 e42
  simp only [containerFields, h0, h1, h2, h3]
  simp only [containerHeadBytes]
  rw [show (42 : Nat) = 42 + 0 from rfl, show (43 : Nat) = 42 + 1 from rfl, h4, h5]
  rfl

/-- The fields of a LongPacket header are read back from its bytes, whatever the pad (30 R54). -/
theorem longFields_head {dst src : List Byte} (h : IdsFit dst src) (pad : Half) (ctype : Word) (length : Half) (tid : Byte) :
    longFields (longHeadBytes dst src pad ctype length tid) = ⟨dst, src, ctype, length, tid⟩ := by
  obtain ⟨hd, hs⟩ := h
  have e36 : (dst ++ src ++ leBytes 2 pad.toNat).length = 36 := by simp [hd, hs]
  have e40 : (dst ++ src ++ leBytes 2 pad.toNat ++ leBytes 4 ctype.toNat).length = 40 := by simp [hd, hs]
  have e42 : (dst ++ src ++ leBytes 2 pad.toNat ++ leBytes 4 ctype.toNat ++ leBytes 2 length.toNat).length = 42 := by
    simp [hd, hs]
  have h0 : slice (longHeadBytes dst src pad ctype length tid) 0 17 = dst := by
    simp only [longHeadBytes, List.append_assoc]
    exact slice_append_left _ _ _ hd
  have h1 : slice (longHeadBytes dst src pad ctype length tid) 17 17 = src := by
    simp only [longHeadBytes, List.append_assoc]
    rw [show (17 : Nat) = 17 + 0 from rfl, slice_append_right _ _ _ _ _ hd]
    exact slice_append_left _ _ _ hs
  have h2 : le32 (longHeadBytes dst src pad ctype length tid) 36 = ctype := by
    simp only [longHeadBytes]
    rw [List.append_assoc, List.append_assoc]
    exact le32_append_right _ _ _ _ e36
  have h3 : le16 (longHeadBytes dst src pad ctype length tid) 40 = length := by
    simp only [longHeadBytes]
    rw [List.append_assoc]
    exact le16_append_right _ _ _ _ e40
  have h4 := byteAt_append_right (dst ++ src ++ leBytes 2 pad.toNat ++ leBytes 4 ctype.toNat ++ leBytes 2 length.toNat)
    [tid] 0 42 e42
  simp only [longFields, h0, h1, h2, h3]
  simp only [longHeadBytes]
  rw [show (42 : Nat) = 42 + 0 from rfl, h4]
  rfl

/-- The Container header of a payload that starts with one (42 R105). -/
theorem containerHdr_head {q : Pdu} {dst src : List Byte} (h : IdsFit dst src) {ctype cflags : Word} {length tid : Byte}
    {tail : List Byte} (hq : q.payload = containerHeadBytes dst src ctype cflags length tid ++ tail) :
    containerHdr q = some ⟨dst, src, ctype, cflags, length, tid⟩ := by
  have := memRead_payload (q := q) (a := []) (b := containerHeadBytes dst src ctype cflags length tid) (c := tail) hq
  rw [containerHeadBytes_length h] at this
  simp only [List.length_nil, Nat.add_zero] at this
  simp [containerHdr, this, containerFields_head h]

/-- A payload too short for the header (42 R105). -/
theorem containerHdr_cut {q : Pdu} (h : q.payload.length < 44) : containerHdr q = none := by
  rw [containerHdr, memRead_of_gt (by rw [Pdu.size_eq]; omega)]
  rfl

/-- The LongPacket header of a payload that starts with one (42 R109). -/
theorem longHdr_head {q : Pdu} {dst src : List Byte} (h : IdsFit dst src) {pad : Half} {ctype : Word} {length : Half}
    {tid : Byte} {tail : List Byte} (hq : q.payload = longHeadBytes dst src pad ctype length tid ++ tail) :
    longHdr q = some ⟨dst, src, ctype, length, tid⟩ := by
  have := memRead_payload (q := q) (a := []) (b := longHeadBytes dst src pad ctype length tid) (c := tail) hq
  rw [longHeadBytes_length h] at this
  simp only [List.length_nil, Nat.add_zero] at this
  simp [longHdr, this, longFields_head h]

/-- A payload too short for the header (42 R109). -/
theorem longHdr_cut {q : Pdu} (h : q.payload.length < 43) : longHdr q = none := by
  rw [longHdr, memRead_of_gt (by rw [Pdu.size_eq]; omega)]
  rfl

/-- A read that starts where a known first part of the payload ends. -/
theorem memRead_after {q : Pdu} {a tail : List Byte} (n : Nat) (h : q.payload = a ++ tail) :
    memRead q (3 + a.length) n = if n ≤ tail.length then some (tail.take n) else none := by
  split
  · rename_i hn
    have := memRead_payload (q := q) (a := a) (b := tail.take n) (c := tail.drop n)
      (by rw [List.append_assoc, List.take_append_drop, h])
    rwa [List.length_take, Nat.min_eq_left hn] at this
  · rename_i hn
    exact memRead_of_gt (by rw [Pdu.size_eq, h, List.length_append]; omega)

/-- Every payload of 44 bytes or more starts with the bytes of a Container header: the forms of `ContainerRow` and
`BusEventRow` leave none out. -/
theorem exists_containerHead (p : List Byte) (h : 44 ≤ p.length) :
    ∃ dst src ctype cflags length tid tail, IdsFit dst src ∧
      p = containerHeadBytes dst src ctype cflags length tid ++ tail := by
  have word : ∀ s : List Byte, s.length = 4 → leBytes 4 (BitVec.ofNat 32 (leNat s)).toNat = s := fun s hs => by
    have hl := leNat_lt s
    rw [hs] at hl
    rw [BitVec.toNat_ofNat, Nat.mod_eq_of_lt (by simpa using hl), ← hs, leBytes_leNat]
  refine ⟨p.take 17, (p.drop 17).take 17, BitVec.ofNat 32 (leNat ((p.drop 34).take 4)),
    BitVec.ofNat 32 (leNat ((p.drop 38).take 4)), byteAt p 42, byteAt p 43, p.drop 44, ⟨by simp; omega, by simp; omega⟩, ?_⟩
  rw [containerHeadBytes, word _ (by simp; omega), word _ (by simp; omega)]
  have e : [byteAt p 42, byteAt p 43] = (p.drop 42).take 2 := by
    apply List.ext_getElem
    · simp; omega
    · intro i h1 h2
      match i, h1 with
      | 0, _ => simp [byteAt, List.getD_eq_getElem?_getD, List.getElem?_eq_getElem (show 42 < p.length by omega)]
      | 1, _ => simp [byteAt, List.getD_eq_getElem?_getD, List.getElem?_eq_getElem (show 43 < p.length by omega)]
  rw [e]
  simp only [List.append_assoc]
  rw [show p.drop 44 = (p.drop 42).drop 2 by simp, List.take_append_drop,
    show p.drop 42 = (p.drop 38).drop 4 by simp, List.take_append_drop,
    show p.drop 38 = (p.drop 34).drop 4 by simp, List.take_append_drop,
    show p.drop 34 = (p.drop 17).drop 17 by simp, List.take_append_drop, List.take_append_drop]

/-- Every payload of 43 bytes or more starts with the bytes of a LongPacket header: the forms of `LongPacketRow` leave none
out. -/
theorem exists_longHead (p : List Byte) (h : 43 ≤ p.length) :
    ∃ dst src pad ctype length tid tail, IdsFit dst src ∧ p = longHeadBytes dst src pad ctype length tid ++ tail := by
  have half : ∀ s : List Byte, s.length = 2 → leBytes 2 (BitVec.ofNat 16 (leNat s)).toNat = s := fun s hs => by
    have hl := leNat_lt s
    rw [hs] at hl
    rw [BitVec.toNat_ofNat, Nat.mod_eq_of_lt (by simpa using hl), ← hs, leBytes_leNat]
  have word : ∀ s : List Byte, s.length = 4 → leBytes 4 (BitVec.ofNat 32 (leNat s)).toNat = s := fun s hs => by
    have hl := leNat_lt s
    rw [hs] at hl
    rw [BitVec.toNat_ofNat, Nat.mod_eq_of_lt (by simpa using hl), ← hs, leBytes_leNat]
  refine ⟨p.take 17, (p.drop 17).take 17, BitVec.ofNat 16 (leNat ((p.drop 34).take 2)),
    BitVec.ofNat 32 (leNat ((p.drop 36).take 4)), BitVec.ofNat 16 (leNat ((p.drop 40).take 2)), byteAt p 42, p.drop 43,
    ⟨by simp; omega, by simp; omega⟩, ?_⟩
  rw [longHeadBytes, half _ (by simp; omega), word _ (by simp; omega), half _ (by simp; omega)]
  have e : [byteAt p 42] = (p.drop 42).take 1 := by
    apply List.ext_getElem
    · simp; omega
    · intro i h1 h2
      match i, h1 with
      | 0, _ => simp [byteAt, List.getD_eq_getElem?_getD, List.getElem?_eq_getElem (show 42 < p.length by omega)]
  rw [e]
  simp only [List.append_assoc]
  rw [show p.drop 43 = (p.drop 42).drop 1 by simp, List.take_append_drop,
    show p.drop 42 = (p.drop 40).drop 2 by simp, List.take_append_drop,
    show p.drop 40 = (p.drop 36).drop 4 by simp, List.take_append_drop,
    show p.drop 36 = (p.drop 34).drop 2 by simp, List.take_append_drop,
    show p.drop 34 = (p.drop 17).drop 17 by simp, List.take_append_drop, List.take_append_drop]

/-- Every payload is whole 12-byte entries and fewer than 12 bytes more (41 R99). -/
theorem exists_entries (p : List Byte) :
    ∃ (ids : List (List Byte)) (tail : List Byte), (∀ id ∈ ids, id.length = 12) ∧ tail.length < 12 ∧
      p = ids.flatten ++ tail := by
  induction hn : p.length using Nat.strong_induction_on generalizing p with
  | _ n ih =>
    by_cases h : p.length < 12
    · exact ⟨[], p, by simp, h, by simp⟩
    · obtain ⟨ids, tail, hid, ht, hp⟩ := ih (p.drop 12).length (by simp; omega) (p.drop 12) rfl
      refine ⟨p.take 12 :: ids, tail, ?_, ht, ?_⟩
      · intro id hm
        rcases List.mem_cons.1 hm with rfl | hm
        · simp; omega
        · exact hid id hm
      · rw [List.flatten_cons, List.append_assoc, ← hp, List.take_append_drop]

/-- The loop of QUERY_DEVICES: with rounds enough it takes the whole entries that follow what it has read (41 R99). -/
theorem dsidLoop_entries (q : Pdu) (ids : List (List Byte)) :
    ∀ (n : Nat) (a tail : List Byte) (acc : List (List Byte)), (∀ id ∈ ids, id.length = 12) → tail.length < 12 →
      q.payload = a ++ ids.flatten ++ tail → ids.length < n →
      dsidLoop q n (3 + a.length) acc = some (acc ++ ids, 3 + a.length + 12 * ids.length) := by
  induction ids with
  | nil =>
    intro n a tail acc _ ht hq hn
    obtain ⟨m, rfl⟩ : ∃ m, n = m + 1 := ⟨n - 1, by simp at hn; omega⟩
    have hs : q.size = 3 + a.length + tail.length := by
      rw [Pdu.size_eq, hq]; simp; omega
    simp only [dsidLoop, hs]
    rw [if_neg (by omega)]
    simp
  | cons id ids ih =>
    intro n a tail acc hid ht hq hn
    obtain ⟨m, rfl⟩ : ∃ m, n = m + 1 := ⟨n - 1, by simp at hn; omega⟩
    have h12 : id.length = 12 := hid id (by simp)
    have hr := memRead_payload (q := q) (a := a) (b := id) (c := ids.flatten ++ tail) (by simpa using hq)
    rw [h12] at hr
    have hle := (memRead_eq_some hr).1
    simp only [dsidLoop, hr, if_pos hle]
    have := ih m (a ++ id) tail (acc ++ [id]) (fun x hx => hid x (by simp [hx])) ht (by simpa using hq)
      (by simpa using hn)
    rw [List.length_append, h12] at this
    rw [show 3 + a.length + 12 = 3 + (a.length + 12) by omega, this]
    simp
    omega

end Sys2Proof.Machine
end

