-- ==== Sys2Proof/Laws/Exec.lean ====
section
/-! SUPPORT. What `exec` does to the host's side, and how a PDU's row and EMIT agree: the facts every whole-machine claim
starts from. -/

namespace Sys2Proof.Machine

/-- The instruction read off the buffer, and what is left (30 R47, R64). -/
theorem decodePdu_eq_ok {P : Params} {bytes : List Byte} {i : Instr} {rest : List Byte} (h : decodePdu P bytes = .ok (i, rest)) :
    complete bytes = true ∧ decodeFrame P (bytes.take (pduSize bytes)) = .ok i ∧ rest = bytes.drop (pduSize bytes) := by
  unfold decodePdu at h
  split at h
  · rename_i hc
    split at h
    · rename_i j hj
      cases h
      exact ⟨hc, hj, rfl⟩
    · cases h
  · cases h

/-- The first `pduSize` bytes of a complete buffer: as many as that, with the buffer's own header. -/
theorem take_pduSize {buf : List Byte} (h : complete buf = true) :
    (buf.take (pduSize buf)).length = pduSize buf ∧ le16 (buf.take (pduSize buf)) 1 = le16 buf 1 ∧
      byteAt (buf.take (pduSize buf)) 0 = byteAt buf 0 := by
  rw [complete_iff] at h
  have h3 := three_le_pduSize buf
  exact ⟨by rw [List.length_take]; omega, le16_take buf 1 _ (by omega) h.2, byteAt_take buf 0 _ (by omega) h.2⟩

/-- Everything the decoder can answer for one whole PDU: a corrupt header, or the row selected for the PDU, and what EMIT's
record is in each case (40 R73, 41 R85, 43 R125). -/
theorem decodeFrame_cases {P : Params} {p : List Byte} {i : Instr} (h : decodeFrame P p = .ok i) :
    ((le16 p 1).toNat < 3 ∧ i = .corruptHeader (byteAt p 0) (le16 p 1) ∧
        pduRecord P p = corruptRecord (byteAt p 0) (le16 p 1)) ∨
      3 ≤ (le16 p 1).toNat ∧ ∃ q, i = selectCommand P q ∧ pduRecord P p = decodeBody P q ∧
        (P.crcAttach = .none ∧ q = pduOfBytes p ∨
          P.crcAttach = .trailer ∧ ∃ body, checkTrailer P.crc p (le16 p 1).toNat = .good body ∧ q = pduOfBytes body) := by
  unfold decodeFrame at h
  split at h
  · rename_i hl
    cases h
    exact .inl ⟨hl, rfl, by simp [pduRecord, hl]⟩
  · rename_i hl
    have hl3 : 3 ≤ (le16 p 1).toNat := by omega
    refine .inr ⟨hl3, ?_⟩
    split at h
    · rename_i ha
      cases h
      exact ⟨_, rfl, by simp [pduRecord, hl, decodeRecord, ha], .inl ⟨ha, rfl⟩⟩
    · rename_i ha
      split at h
      · cases h
      · cases h
      · rename_i body hb
        cases h
        exact ⟨_, rfl, by simp [pduRecord, hl, decodeRecord, ha, crcStage, hb], .inr ⟨ha, body, hb, rfl⟩⟩

/-- EMIT on a complete PDU (40 R71). -/
theorem exec_emit_of_complete {s : State} (h : complete s.buf = true) :
    exec .emit s =
      emitRecord Config.params (pduSize s.buf) (pduRecord Config.params (s.buf.take (pduSize s.buf))) s :=
  if_pos h

/-- EMIT without a complete PDU waits (40 R71). -/
theorem exec_emit_of_incomplete {s : State} (h : complete s.buf = false) : exec .emit s = .next s :=
  if_neg (by simp [h])

/-- The size of a PDU whose length field is legal (10 R18). -/
theorem pduSize_of_legal {buf : List Byte} (h : 3 ≤ (le16 buf 1).toNat) : pduSize buf = (le16 buf 1).toNat :=
  Nat.max_eq_right h

/-- The size of a corrupt header (10 R18). -/
theorem pduSize_of_corrupt {buf : List Byte} (h : (le16 buf 1).toNat < 3) : pduSize buf = 3 :=
  Nat.max_eq_left (Nat.le_of_lt h)

theorem pduSize_le_cap (buf : List Byte) : pduSize buf ≤ Config.bufCap :=
  Nat.max_le.2 ⟨by decide, Nat.le_of_lt_succ (le16 buf 1).isLt⟩

/-- No instruction changes the coming turns. -/
theorem exec_turns {i : Instr} {s t : State} (h : exec i s = .next t) : t.turns = s.turns := by
  have hemit : ∀ n r, emitRecord Config.params n r s = .next t → t.turns = s.turns := fun n r h => by
    rcases emitRecord_next h with ⟨-, rfl⟩ | ⟨-, rfl⟩ <;> rfl
  have hpush : ∀ b u, pushByte b u = .next t → t.turns = u.turns := fun b u h => by
    unfold pushByte at h
    split at h <;> cases h <;> rfl
  cases i with
  | push b => exact hpush b s h
  | chunk bs =>
    cases bs with
    | nil => cases h; rfl
    | cons b rest =>
      simp only [exec, execChunk] at h
      split at h
      · cases h; rfl
      · have := hpush _ _ h
        split at this <;> simpa using this
  | emit =>
    simp only [exec, execEmit] at h
    split at h
    · exact hemit _ _ h
    · cases h; rfl
  | pop =>
    rcases popRecord_next h with ⟨-, rfl⟩ | ⟨r, rest, -, rfl⟩ <;> rfl
  | streamReset => cases h; rfl
  | reset => cases h; rfl
  | rd off =>
    simp only [exec, execRd] at h
    split at h <;> cases h
    rfl
  | wr off v =>
    simp only [exec, execWr] at h
    split at h
    · split at h
      · cases h
        unfold writeCtrl clearEngine clearStream
        split_ifs <;> rfl
      · split at h
        · exact hpush _ _ h
        · cases h; rfl
    · cases h
  | _ => exact hemit _ _ h

end Sys2Proof.Machine
end

