-- ==== Sys2Proof/Laws/PerInstr.lean ====
section
/-! SUPPORT. Facts about each instruction as syntax. `EncodedSize`: a well-formed instruction encodes to as many stream bytes as
its length field declares (spec 30 R47), a corrupt header to three (40 R73), a HOST row to none (30 R46). -/

namespace Sys2Proof.Laws.EncodedSize

/-- How many stream bytes an instruction declares. -/
def declared : Instr → Nat
  | .corruptHeader _ _ => 3
  | i => (i.pdu?.map (fun q => q.len.toNat)).getD 0

/-- The family's statement. -/
def Statement (i : Instr) : Prop := ∀ P : Params, WellFormed P i → (encodePdu P i).length = declared i

/-- Every row that carries a PDU: its frame is checked by `WellFormed`. -/
theorem of_pdu {i : Instr} {q : Pdu} (h : i.pdu? = some q) (hd : declared i = q.len.toNat) : Statement i := by
  intro P hw
  rw [encodePdu_of_pdu P h, framedBytes_length, hd]
  exact (beq_iff_eq.1 ((wellFormed_of_pdu P h).1 hw).2).symm

theorem sync (q : Pdu) : Statement (.sync q) := of_pdu rfl rfl

theorem apiRevision (q : Pdu) : Statement (.apiRevision q) := of_pdu rfl rfl

theorem ping (q : Pdu) : Statement (.ping q) := of_pdu rfl rfl

theorem txPacket (q : Pdu) : Statement (.txPacket q) := of_pdu rfl rfl

theorem rxPacket (q : Pdu) : Statement (.rxPacket q) := of_pdu rfl rfl

theorem longTxPacket (q : Pdu) : Statement (.longTxPacket q) := of_pdu rfl rfl

theorem longRxPacket (q : Pdu) : Statement (.longRxPacket q) := of_pdu rfl rfl

theorem devicePacket (q : Pdu) : Statement (.devicePacket q) := of_pdu rfl rfl

theorem register (q : Pdu) : Statement (.register q) := of_pdu rfl rfl

theorem unregister (q : Pdu) : Statement (.unregister q) := of_pdu rfl rfl

theorem packetfilter (q : Pdu) : Statement (.packetfilter q) := of_pdu rfl rfl

theorem rawmode (q : Pdu) : Statement (.rawmode q) := of_pdu rfl rfl

theorem queryDevices (q : Pdu) : Statement (.queryDevices q) := of_pdu rfl rfl

theorem queryDsuid (q : Pdu) : Statement (.queryDsuid q) := of_pdu rfl rfl

theorem queryAddress (q : Pdu) : Statement (.queryAddress q) := of_pdu rfl rfl

theorem queryBusstate (q : Pdu) : Statement (.queryBusstate q) := of_pdu rfl rfl

theorem busChange (q : Pdu) : Statement (.busChange q) := of_pdu rfl rfl

theorem busState (q : Pdu) : Statement (.busState q) := of_pdu rfl rfl

theorem restartBus (q : Pdu) : Statement (.restartBus q) := of_pdu rfl rfl

theorem unknown (q : Pdu) : Statement (.unknown q) := of_pdu rfl rfl

theorem corruptHeader (cmd : Byte) (len : Half) : Statement (.corruptHeader cmd len) := fun _ _ => pduBytes_length cmd len []

theorem push (b : Byte) : Statement (.push b) := fun _ _ => rfl

theorem chunk (bs : List Byte) : Statement (.chunk bs) := fun _ _ => rfl

theorem emit : Statement .emit := fun _ _ => rfl

theorem pop : Statement .pop := fun _ _ => rfl

theorem streamReset : Statement .streamReset := fun _ _ => rfl

theorem reset : Statement .reset := fun _ _ => rfl

theorem rd (off : Byte) : Statement (.rd off) := fun _ _ => rfl

theorem wr (off : Byte) (v : Word) : Statement (.wr off v) := fun _ _ => rfl

end Sys2Proof.Laws.EncodedSize
end

