-- ==== Sys2Proof/Laws/Step.lean ====
section
/-! SUPPORT. What `step` calls in each of its cases, one lemma a case, and a run one step at a time. -/

namespace Sys2Proof.Machine

open Sys2Proof.Safety

theorem step_of_engine {s : State} {ts : List Turn} (h : s.turns = .engine :: ts) : step s = engineTurn (s.withTurns ts) := by
  rw [step, h]

theorem step_of_host {s : State} {ts : List Turn} (h : s.turns = .host :: ts) : step s = hostTurn (s.withTurns ts) := by
  rw [step, h]

theorem step_of_port {s : State} {t : Transaction} {ts : List Turn} (h : s.turns = .port t :: ts) :
    step s = portTurn t (s.withTurns ts) := by
  rw [step, h]

/-- With no turns given, an enabled EMIT goes first (log entry 3). -/
theorem step_of_enabled {s : State} (h : s.turns = []) (he : emitEnabled Config.params s = true) : step s = engineTurn s := by
  rw [step, h]
  exact if_pos he

/-- With no turns given and EMIT not enabled, the host goes (log entry 3). -/
theorem step_of_disabled {s : State} (h : s.turns = []) (he : emitEnabled Config.params s = false) : step s = hostTurn s := by
  rw [step, h]
  exact if_neg (by simp [he])

theorem engineTurn_of_disabled {s : State} (he : emitEnabled Config.params s = false) : engineTurn s = .next s :=
  if_neg (by simp [he])

theorem engineTurn_of_decoded {s : State} {i : Instr} {rest : List Byte} (he : emitEnabled Config.params s = true)
    (hd : decodePdu Config.params s.buf = .ok (i, rest)) : engineTurn s = exec i s := by
  rw [engineTurn, if_pos he, fetch, hd]

theorem hostTurn_of_nil {s : State} (h : s.hostOps = []) : hostTurn s = .next s := by
  rw [hostTurn, h]

theorem hostTurn_of_cons {s : State} {t : Transaction} {ops : List Transaction} {i : Instr} (h : s.hostOps = t :: ops)
    (hd : decodeTransaction t = .ok i) :
    hostTurn s = if enabled Config.params s i then exec i (s.withHostOps ops) else .next s := by
  rw [hostTurn, h]
  dsimp only
  rw [hd]

theorem hostTurn_of_error {s : State} {t : Transaction} {ops : List Transaction} {e : TransactionReject}
    (h : s.hostOps = t :: ops) (hd : decodeTransaction t = .error e) : hostTurn s = .refused (refuseAccess e) := by
  rw [hostTurn, h]
  dsimp only
  rw [hd]

theorem portTurn_of_ok {s : State} {t : Transaction} {i : Instr} (hd : decodeTransaction t = .ok i) :
    portTurn t s = if enabled Config.params s i then exec i s else .next (s.withHostOps (s.hostOps ++ [t])) := by
  rw [portTurn, hd]

/-- On a port turn an operation that is not enabled is kept, and nothing else changes (70 R150, R151). -/
theorem portTurn_of_disabled {s : State} {t : Transaction} {i : Instr} (hd : decodeTransaction t = .ok i)
    (he : enabled Config.params s i = false) : portTurn t s = .next (s.withHostOps (s.hostOps ++ [t])) := by
  rw [portTurn_of_ok hd]
  exact if_neg (by simp [he])

theorem portTurn_of_error {s : State} {t : Transaction} {e : TransactionReject} (hd : decodeTransaction t = .error e) :
    portTurn t s = .refused (refuseAccess e) := by
  rw [portTurn, hd]

/-- A complete buffer decodes to some row: the machine runs without a CRC trailer (43 R123). -/
theorem decodePdu_of_complete {buf : List Byte} (h : complete buf = true) :
    ∃ i rest, decodePdu Config.params buf = .ok (i, rest) := by
  have ha : Config.params.crcAttach = .none := rfl
  have : ∃ i, decodeFrame Config.params (buf.take (pduSize buf)) = .ok i := by
    unfold decodeFrame
    split
    · exact ⟨_, rfl⟩
    · rw [ha]
      exact ⟨_, rfl⟩
  obtain ⟨i, hi⟩ := this
  exact ⟨i, _, by rw [decodePdu, if_pos h, hi]⟩

/-- Whether an operation is enabled does not depend on the host's side. -/
theorem enabled_congr (P : Params) {s t : State} (i : Instr) (hb : s.buf = t.buf) (ho : s.outq = t.outq) :
    enabled P s i = enabled P t i := by
  cases i <;> simp only [enabled, emitEnabled, hasRoom, inReady, outValid, hb, ho]

/-- A run whose first step gives `t` goes on from `t`. -/
theorem runSteps_of_next {s t : State} (n : Nat) (h : step s = .next t) : runSteps (n + 1) s = runSteps n t := by
  rw [runSteps, h]

/-- A run of one or more steps that gives a state took a first step that gives a state. -/
theorem runSteps_succ_next {n : Nat} {s t : State} (h : runSteps (n + 1) s = .next t) :
    ∃ u, step s = .next u ∧ runSteps n u = .next t := by
  rw [runSteps] at h
  split at h
  · rename_i u hu
    exact ⟨u, hu, h⟩
  · cases h
  · cases h

/-- `runSteps` is the host's `Core.run` of the machine. -/
theorem runSteps_eq_core_run (n : Nat) (s : State) : runSteps n s = Host.Core.run core n s := by
  induction n generalizing s with
  | zero => rfl
  | succ n ih =>
    have e := Host.Core.run.eq_def core (n + 1) s
    dsimp only at e
    have hs : ∀ o, step s = o → core.step s = o := fun _ h => h
    refine Eq.trans ?_ e.symm
    cases h : step s with
    | next t => rw [runSteps_of_next n h, hs _ h]; exact ih t
    | fault r => rw [runSteps, h, hs _ h]; rfl
    | refused r => rw [runSteps, h, hs _ h]; rfl

/-- A step takes the next turn, and nothing else changes the turns to come. -/
theorem step_turns {s t : State} {x : Turn} {ts : List Turn} (h : s.turns = x :: ts) (hs : step s = .next t) : t.turns = ts := by
  cases x with
  | engine =>
    rw [step_of_engine h, engineTurn] at hs
    split at hs
    · split at hs <;> exact exec_turns hs
    · cases hs; rfl
  | host =>
    rw [step_of_host h, hostTurn] at hs
    split at hs
    · cases hs; rfl
    · split at hs
      · split at hs
        · exact exec_turns hs
        · cases hs; rfl
      · cases hs
  | port p =>
    rw [step_of_port h, portTurn] at hs
    split at hs
    · split at hs
      · exact exec_turns hs
      · cases hs; rfl
    · cases hs

end Sys2Proof.Machine
end

