-- ==== Sys2Proof/Laws/Stream.lean ====
section
/-! SUPPORT. The buffer's form (spec 40 R72) under every operation on the buffer, and the whole-stream contract of 40 R67 one
PDU at a time. -/

namespace Sys2Proof.Machine

open Sys2Proof.Safety

/-- The empty buffer, which reset and both resets leave, has the form. -/
theorem bufferFits_nil : BufferFits [] := fun h => absurd h (by decide)

theorem bufferFits_reset : BufferFits State.reset.buf := bufferFits_nil

/-- An accepted PUSH keeps the form: it completes at most the PDU it belongs to (40 R72). -/
theorem bufferFits_push {buf : List Byte} (b : Byte) (h : complete buf = false) : BufferFits (buf ++ [b]) := by
  intro h3
  rw [List.length_append, List.length_singleton] at h3 ⊢
  by_cases hl : 3 ≤ buf.length
  · rw [pduSize_append _ _ hl]
    have : ¬ (3 ≤ buf.length ∧ pduSize buf ≤ buf.length) := fun e => by
      rw [(complete_iff buf).2 e] at h
      cases h
    omega
  · have := three_le_pduSize (buf ++ [b])
    omega

/-- Under the form, what an EMIT takes is the whole buffer (40 R72). -/
theorem drop_pduSize_of_fits {buf : List Byte} (hf : BufferFits buf) (hc : complete buf = true) :
    buf.drop (pduSize buf) = [] :=
  List.drop_eq_nil_of_le (hf ((complete_iff buf).1 hc).1)

/-- Everything an EMIT can do (40 R71). -/
theorem exec_emit_next {s t : State} (h : exec .emit s = .next t) :
    t = s ∨ complete s.buf = true ∧ s.outq.length < Config.params.outDepth ∧
      t = { s with
        buf := s.buf.drop (pduSize s.buf)
        outq := s.outq ++ [pduRecord Config.params (s.buf.take (pduSize s.buf))] } := by
  cases hc : complete s.buf with
  | false =>
    rw [exec_emit_of_incomplete hc] at h
    cases h
    exact .inl rfl
  | true =>
    rw [exec_emit_of_complete hc] at h
    rcases emitRecord_next h with ⟨hr, rfl⟩ | ⟨-, rfl⟩
    · exact .inr ⟨rfl, hr, rfl⟩
    · exact .inl rfl

/-- Rounds beyond the stream's length change nothing, since every PDU takes at least three bytes. -/
theorem framesUpTo_of_le (P : Params) : ∀ n S, S.length ≤ n → framesUpTo P n S = framesUpTo P S.length S := by
  intro n
  induction n using Nat.strong_induction_on with
  | _ n ih =>
    intro S hS
    match n, hS with
    | 0, hS =>
      rw [show S.length = 0 by omega]
    | n + 1, hS =>
      match hl : S.length with
      | 0 =>
        rw [framesUpTo, framesUpTo, if_neg]
        rw [complete_iff]
        omega
      | m + 1 =>
        have h3 := three_le_pduSize S
        rw [framesUpTo, framesUpTo]
        dsimp only
        have hd : (S.drop (pduSize S)).length ≤ m := by
          rw [List.length_drop]
          omega
        rw [ih n (by omega) _ (by omega)]
        by_cases hm : m < n + 1
        · rw [ih m hm _ hd]
        · obtain rfl : m = n := by omega
          rw [ih m (by omega) _ hd]

/-- A stream that starts with a whole PDU. -/
theorem streamDecode_of_complete {P : Params} {S : List Byte} (h : complete S = true) :
    streamDecode P S =
      (pduRecord P (S.take (pduSize S)) :: (streamDecode P (S.drop (pduSize S))).1,
        (streamDecode P (S.drop (pduSize S))).2) := by
  have h3 := ((complete_iff S).1 h).1
  have hp := three_le_pduSize S
  unfold streamDecode
  obtain ⟨m, hm⟩ : ∃ m, S.length = m + 1 := ⟨S.length - 1, by omega⟩
  rw [hm, framesUpTo, if_pos h]
  dsimp only
  rw [framesUpTo_of_le P m _ (by rw [List.length_drop]; omega)]

/-- A stream that ends inside its first PDU. -/
theorem streamDecode_of_incomplete {P : Params} {S : List Byte} (h : complete S = false) : streamDecode P S = ([], S) := by
  unfold streamDecode
  cases S.length with
  | zero => rfl
  | succ n => rw [framesUpTo, if_neg (by rw [h]; decide)]

/-- The identifiers of a header the parser reads are 17 bytes (30 R52). -/
theorem containerHdr_idsFit {q : Pdu} {h : ContainerHdr} (e : containerHdr q = some h) : IdsFit h.dst h.src := by
  unfold containerHdr at e
  cases hm : memRead q 3 44 with
  | none =>
    rw [hm] at e
    cases e
  | some b =>
    rw [hm] at e
    cases e
    have hb := (memRead_eq_some hm).2.2
    exact ⟨by simp [containerFields, hb], by simp [containerFields, hb]⟩

/-- The same of a LongPacket (30 R54). -/
theorem longHdr_idsFit {q : Pdu} {h : LongHdr} (e : longHdr q = some h) : IdsFit h.dst h.src := by
  unfold longHdr at e
  cases hm : memRead q 3 43 with
  | none =>
    rw [hm] at e
    cases e
  | some b =>
    rw [hm] at e
    cases e
    have hb := (memRead_eq_some hm).2.2
    exact ⟨by simp [longFields, hb], by simp [longFields, hb]⟩

/-- The entries of a QUERY_DEVICES response are 12 bytes each (41 R99). -/
theorem dsidLoop_length {q : Pdu} : ∀ n off acc ids o, dsidLoop q n off acc = some (ids, o) →
    (∀ id ∈ acc, id.length = 12) → ∀ id ∈ ids, id.length = 12 := by
  intro n
  induction n with
  | zero =>
    intro off acc ids o h ha
    cases h
    exact ha
  | succ n ih =>
    intro off acc ids o h ha
    rw [dsidLoop] at h
    split at h
    · split at h
      · rename_i id hid
        refine ih _ _ _ _ h fun x hx => ?_
        rcases List.mem_append.1 hx with hx | hx
        · exact ha x hx
        · rw [List.mem_singleton.1 hx]
          exact (memRead_eq_some hid).2.2
      · cases h
    · cases h
      exact ha

end Sys2Proof.Machine
end

