-- ==== Sys2Proof/Tests/Slice0.lean ====
section
/-! SUPPORT. Tests, with the expected results of spec 95 (its vector in each comment) or worked out by hand from the rules, and
one witness for each statement that has hypotheses. -/

namespace Sys2Proof.Tests

open Sys2Proof.Machine Sys2Proof.Safety

/-- The conventions of spec 95, with one admissible `CMD_CODE`: OUT_DEPTH 4, LEAVE_MASK 1, no trailer. -/
def testParams : Params :=
  { codes := Config.someCmdCodes, queueRoom := 3, longMax := .m8599, leaveBit := 0, ctypeRequest := 0, ctypeResponse := 1,
    ctypeEvent := 2, cflagNone := 0, cflagBroadcast := 1, crcAttach := .none,
    crc := { width := .w16, poly := 0x1021, init := 0xFFFF, xorout := 0, refin := false, refout := false } }

/-- The parameters of V43-6. -/
def testTrailer : Params := { testParams with crcAttach := .trailer }

/-- OUT_DEPTH 1, as in V40-8. -/
def testDepth1 : Params := { testParams with queueRoom := 0 }

/-- After reset, with these bytes in the buffer. -/
def withBytes (bs : List Byte) : State := { State.reset with buf := bs }

/-- With one record queued and these bytes left in the buffer. -/
def emitted (bs : List Byte) (r : Record) : State := { State.reset with buf := bs, outq := [r] }

/-- `17×00 17×FF`, the identifiers of spec 95. -/
def testIds : List Byte := List.replicate 17 0x00 ++ List.replicate 17 0xFF

def testHdr (ctype cflags : Word) (length tid : Byte) : ContainerHdr :=
  ⟨List.replicate 17 0x00, List.replicate 17 0xFF, ctype, cflags, length, tid⟩

/-- W1's record. -/
def pingRec : Record := ⟨.ok, 0, 0x02, .known .ping, 3, some .empty, none⟩

/-! ### Ill-formed terms -/

/-- A command byte of another row. -/
theorem test_illFormed_command : ¬ WellFormed testParams (.sync ⟨0x02, 3, []⟩) := by decide

/-- A length field that is not the PDU's length. -/
theorem test_illFormed_length : ¬ WellFormed testParams (.ping ⟨0x02, 4, []⟩) := by decide

/-- With a trailer the length field counts it. -/
theorem test_illFormed_trailer :
    ¬ WellFormed testTrailer (.ping ⟨0x02, 3, []⟩) ∧ WellFormed testTrailer (.ping ⟨0x02, 5, []⟩) := by decide

/-- UNKNOWN with the byte of a command. -/
theorem test_illFormed_unknown : ¬ WellFormed testParams (.unknown ⟨0x23, 3, []⟩) := by decide

/-- CORRUPT_HEADER with a legal length. -/
theorem test_illFormed_corrupt : ¬ WellFormed testParams (.corruptHeader 0x07 3) := by decide

/-- Register offsets that are not aligned. -/
theorem test_illFormed_offset : ¬ WellFormed testParams (.rd 0x06) ∧ ¬ WellFormed testParams (.wr 0x11 0) := by decide

theorem test_wellFormed :
    WellFormed testParams (.sync ⟨0x40, 3, []⟩) ∧ WellFormed testParams (.corruptHeader 0x07 2) ∧
      WellFormed testParams (.rd 0xFC) ∧ WellFormed testParams (.unknown ⟨0x99, 4, [0xAA]⟩) := by decide

/-! ### Decoding, by words written out from 30 R48 and R64 -/

theorem test_decode_sync : decodePdu testParams [0x40, 0x03, 0x00, 0xEE] = .ok (.sync ⟨0x40, 3, []⟩, [0xEE]) := by rfl

theorem test_decode_apiRevision : decodePdu testParams [0x41, 0x04, 0x00, 0x07] = .ok (.apiRevision ⟨0x41, 4, [7]⟩, []) := by rfl

theorem test_decode_ping : decodePdu testParams [0x02, 0x05, 0x00, 0x01, 0x02] = .ok (.ping ⟨0x02, 5, [1, 2]⟩, []) := by rfl

theorem test_decode_txPacket : decodePdu testParams [0x43, 0x03, 0x00] = .ok (.txPacket ⟨0x43, 3, []⟩, []) := by rfl

theorem test_decode_rxPacket : decodePdu testParams [0x44, 0x03, 0x00] = .ok (.rxPacket ⟨0x44, 3, []⟩, []) := by rfl

theorem test_decode_longTxPacket : decodePdu testParams [0x45, 0x03, 0x00] = .ok (.longTxPacket ⟨0x45, 3, []⟩, []) := by rfl

theorem test_decode_longRxPacket : decodePdu testParams [0x46, 0x03, 0x00] = .ok (.longRxPacket ⟨0x46, 3, []⟩, []) := by rfl

theorem test_decode_devicePacket :
    decodePdu testParams [0x47, 0x05, 0x00, 0x01, 0x02] = .ok (.devicePacket ⟨0x47, 5, [1, 2]⟩, []) := by rfl

theorem test_decode_register : decodePdu testParams [0x48, 0x03, 0x00] = .ok (.register ⟨0x48, 3, []⟩, []) := by rfl

theorem test_decode_unregister : decodePdu testParams [0x49, 0x03, 0x00] = .ok (.unregister ⟨0x49, 3, []⟩, []) := by rfl

theorem test_decode_packetfilter :
    decodePdu testParams [0x4A, 0x04, 0x00, 0x0A] = .ok (.packetfilter ⟨0x4A, 4, [0x0A]⟩, []) := by rfl

theorem test_decode_rawmode : decodePdu testParams [0x4B, 0x04, 0x00, 0x01] = .ok (.rawmode ⟨0x4B, 4, [1]⟩, []) := by rfl

theorem test_decode_queryDevices :
    decodePdu testParams [0x4C, 0x04, 0x00, 0x44] = .ok (.queryDevices ⟨0x4C, 4, [0x44]⟩, []) := by rfl

theorem test_decode_queryDsuid : decodePdu testParams [0x4D, 0x03, 0x00] = .ok (.queryDsuid ⟨0x4D, 3, []⟩, []) := by rfl

theorem test_decode_queryAddress :
    decodePdu testParams [0x4E, 0x04, 0x00, 0x05] = .ok (.queryAddress ⟨0x4E, 4, [5]⟩, []) := by rfl

theorem test_decode_queryBusstate :
    decodePdu testParams [0x23, 0x04, 0x00, 0x03, 0x02] = .ok (.queryBusstate ⟨0x23, 4, [3]⟩, [0x02]) := by rfl

theorem test_decode_busChange : decodePdu testParams [0x50, 0x03, 0x00] = .ok (.busChange ⟨0x50, 3, []⟩, []) := by rfl

theorem test_decode_busState : decodePdu testParams [0x51, 0x03, 0x00] = .ok (.busState ⟨0x51, 3, []⟩, []) := by rfl

theorem test_decode_restartBus : decodePdu testParams [0x52, 0x04, 0x00, 0x00] = .ok (.restartBus ⟨0x52, 4, [0]⟩, []) := by rfl

theorem test_decode_unknown :
    decodePdu testParams [0x99, 0x04, 0x00, 0xAA, 0x02] = .ok (.unknown ⟨0x99, 4, [0xAA]⟩, [0x02]) := by rfl

/-- V40-6; the command byte of a known command makes no difference (40 R73). -/
theorem test_decode_corruptHeader :
    decodePdu testParams [0x07, 0x02, 0x00, 0x02] = .ok (.corruptHeader 0x07 2, [0x02]) ∧
      decodePdu testParams [0x02, 0x00, 0x00] = .ok (.corruptHeader 0x02 0, []) := ⟨rfl, rfl⟩

/-- The length field is little-endian: 0x0103 bytes are not there. -/
theorem test_decode_incomplete :
    decodePdu testParams [0x02, 0x03, 0x01] = .error .incomplete ∧ decodePdu testParams [0x02, 0x03] = .error .incomplete :=
  ⟨rfl, rfl⟩

theorem test_decode_transactions :
    decodeTransaction (.push 0x02) = .ok (.push 0x02) ∧ decodeTransaction (.chunk [0x02]) = .ok (.chunk [0x02]) ∧
      decodeTransaction .pop = .ok .pop ∧ decodeTransaction .sreset = .ok .streamReset ∧
      decodeTransaction .reset = .ok .reset ∧ decodeTransaction (.read 0x04 32) = .ok (.rd 0x04) ∧
      decodeTransaction (.write 0x10 32 0x102) = .ok (.wr 0x10 0x102) ∧
      decodeTransaction (.read 0x04 8) = .error (.width 8) ∧ decodeTransaction (.read 0x05 32) = .error (.unaligned 0x05) :=
  ⟨rfl, rfl, rfl, rfl, rfl, rfl, rfl, rfl, rfl⟩

/-! ### Records: the vectors of spec 95, sections 1 and 2 -/

/-- V41-1, V41-5, W2, V41-3. -/
theorem test_record_fixedCodes :
    pduRecord testParams [0x02, 0x05, 0x00, 0x01, 0x02] = ⟨.ok, 0, 0x02, .known .ping, 5, some .empty, none⟩ ∧
    pduRecord testParams [0x23, 0x03, 0x00] = ⟨.ok, 0, 0x23, .known .queryBusstate, 3, some .empty, none⟩ ∧
    pduRecord testParams [0x23, 0x04, 0x00, 0x03] = ⟨.ok, 0, 0x23, .known .queryBusstate, 4, some (.busStateValue 3), none⟩ ∧
    pduRecord testParams [0x23, 0x04, 0x00, 0x06] = ⟨.ok, 1, 0x23, .known .queryBusstate, 4, some (.busStateValue 6), none⟩ := by
  decide

/-- V41-2 and V41-4: state 0 warns, state 5 does not, and a surplus byte is ignored. -/
theorem test_record_busstate_ends :
    pduRecord testParams [0x23, 0x04, 0x00, 0x00] = ⟨.ok, 1, 0x23, .known .queryBusstate, 4, some (.busStateValue 0), none⟩ ∧
    pduRecord testParams [0x23, 0x05, 0x00, 0x05, 0x09] =
      ⟨.ok, 0, 0x23, .known .queryBusstate, 5, some (.busStateValue 5), none⟩ := by decide

/-- V41-11 and V41-12. -/
theorem test_record_dsuid :
    pduRecord testParams [0x4D, 0x0F, 0x00, 1, 2, 3, 4, 5, 6, 7, 8, 9, 10, 11, 12] =
      ⟨.ok, 0, 0x4D, .known .queryDsuid, 15, some (.dsid [1, 2, 3, 4, 5, 6, 7, 8, 9, 10, 11, 12]), none⟩ ∧
    pduRecord testParams [0x4D, 0x0E, 0x00, 1, 2, 3, 4, 5, 6, 7, 8, 9, 10, 11] =
      ⟨.truncated, 0, 0x4D, .unknown 0x4D, 14, none, some [1, 2, 3, 4, 5, 6, 7, 8, 9, 10, 11]⟩ := by decide

/-- W6 and V41-15. -/
theorem test_record_devices :
    pduRecord testParams ([0x4C, 0x20, 0x00] ++ List.replicate 12 0x11 ++ List.replicate 12 0x22 ++ List.replicate 5 0x33) =
      ⟨.ok, 2, 0x4C, .known .queryDevices, 32, some (.devices [List.replicate 12 0x11, List.replicate 12 0x22]), none⟩ ∧
    pduRecord testParams [0x4C, 0x04, 0x00, 0x44] = ⟨.ok, 2, 0x4C, .known .queryDevices, 4, some (.devices []), none⟩ := by
  decide

/-- V42-2. -/
theorem test_record_container :
    pduRecord testParams
        ([0x43, 0x32, 0x00] ++ testIds ++ [2, 0, 0, 0] ++ [0, 0, 0, 0x80] ++ [3, 9] ++ [0xAA, 0xBB, 0xCC]) =
      ⟨.ok, 0, 0x43, .known .txPacket, 50, some (.containerHdr (testHdr 2 0x80000000 3 9)), some [0xAA, 0xBB, 0xCC]⟩ := by
  decide

/-- V42-4: the header's `length` passes the data. -/
theorem test_record_container_cut :
    pduRecord testParams ([0x44, 0x31, 0x00] ++ testIds ++ [2, 0, 0, 0] ++ [0, 0, 0, 0x80] ++ [3, 9] ++ [0xAA, 0xBB]) =
      ⟨.truncated, 0, 0x44, .unknown 0x44, 49, none,
        some (testIds ++ [2, 0, 0, 0] ++ [0, 0, 0, 0x80] ++ [3, 9] ++ [0xAA, 0xBB])⟩ := by
  decide

/-- V42-5, with two data bytes: a `length` over capacity warns, and the record is truncated. -/
theorem test_record_container_over :
    pduRecord testParams ([0x44, 0x31, 0x00] ++ testIds ++ [2, 0, 0, 0] ++ [0, 0, 0, 0] ++ [0x80, 9] ++ [0xAA, 0xBB]) =
      ⟨.truncated, 1, 0x44, .unknown 0x44, 49, none,
        some (testIds ++ [2, 0, 0, 0] ++ [0, 0, 0, 0] ++ [0x80, 9] ++ [0xAA, 0xBB])⟩ := by
  decide

/-- V42-9: the pad is in no field. -/
theorem test_record_long :
    pduRecord testParams ([0x45, 0x30, 0x00] ++ testIds ++ [0xEF, 0xBE] ++ [3, 0, 0, 0] ++ [2, 0] ++ [7] ++ [1, 2]) =
      ⟨.ok, 0, 0x45, .known .longTxPacket, 48,
        some (.longHdr ⟨List.replicate 17 0x00, List.replicate 17 0xFF, 3, 2, 7⟩), some [1, 2]⟩ := by
  decide

/-- V42-13's warning, with `length` 8600 and no data; and the same PDU without it where LONG_DATA_MAX is 8600. -/
theorem test_record_long_over :
    (pduRecord testParams ([0x46, 0x2E, 0x00] ++ testIds ++ [0, 0] ++ [3, 0, 0, 0] ++ [0x98, 0x21] ++ [7])).warn = 1 ∧
      (pduRecord { testParams with longMax := .m8600 }
        ([0x46, 0x2E, 0x00] ++ testIds ++ [0, 0] ++ [3, 0, 0, 0] ++ [0x98, 0x21] ++ [7])).warn = 0 := by
  decide

/-- V41-22 and V41-23: bit 0 of the flag byte, set, means leave. -/
theorem test_record_busChange :
    pduRecord testParams ([0x50, 0x33, 0x00] ++ testIds ++ [3, 0, 0, 0] ++ [0, 0, 0, 0] ++ [4, 1] ++ [0, 0, 0, 1]) =
      ⟨.ok, 0, 0x50, .known .busChange, 51, some (.busChange (testHdr 3 0 4 1) 1 true), none⟩ ∧
    pduRecord testParams ([0x50, 0x33, 0x00] ++ testIds ++ [3, 0, 0, 0] ++ [0, 0, 0, 0] ++ [4, 1] ++ [0, 0, 0, 0xFE]) =
      ⟨.ok, 0, 0x50, .known .busChange, 51, some (.busChange (testHdr 3 0 4 1) 0xFE false), none⟩ := by
  decide

/-- V41-27 (a `length` over capacity warns and decodes) and V41-24 (byte 3 is outside the data). -/
theorem test_record_busChange_ends :
    pduRecord testParams ([0x50, 0x33, 0x00] ++ testIds ++ [3, 0, 0, 0] ++ [0, 0, 0, 0] ++ [200, 1] ++ [0, 0, 0, 1]) =
      ⟨.ok, 1, 0x50, .known .busChange, 51, some (.busChange (testHdr 3 0 200 1) 1 true), none⟩ ∧
    (pduRecord testParams ([0x50, 0x32, 0x00] ++ testIds ++ [3, 0, 0, 0] ++ [0, 0, 0, 0] ++ [3, 1] ++ [0, 0, 0])).status =
      .truncated := by
  decide

/-- V41-29. -/
theorem test_record_busState :
    pduRecord testParams ([0x51, 0x33, 0x00] ++ testIds ++ [3, 0, 0, 0] ++ [0, 0, 0, 0] ++ [4, 1] ++ [0, 0, 0, 9]) =
      ⟨.ok, 1, 0x51, .known .busState, 51, some (.busStateEvent (testHdr 3 0 4 1) 9), none⟩ := by
  decide

/-! ### CRC, identifiers, addresses (V43) -/

/-- V43-6 and V43-10: the trailer is little-endian and covers header and body. -/
theorem test_crc_good :
    pduRecord testTrailer [0x02, 0x05, 0x00, 0x09, 0x5D] = ⟨.ok, 0, 0x02, .known .ping, 5, some .empty, none⟩ ∧
      pduRecord testTrailer [0x23, 0x06, 0x00, 0x03, 0x91, 0xAA] =
        ⟨.ok, 0, 0x23, .known .queryBusstate, 6, some (.busStateValue 3), none⟩ := by
  decide +kernel

/-- V43-7, V43-9 (the CRC comes before the dispatch) and V43-8. -/
theorem test_crc_bad :
    pduRecord testTrailer [0x02, 0x05, 0x00, 0x5D, 0x09] = ⟨.crcError, 0, 0x02, .unknown 0x02, 5, none, some [0x5D, 0x09]⟩ ∧
      pduRecord testTrailer [0x99, 0x05, 0x00, 0x00, 0x00] = ⟨.crcError, 0, 0x99, .unknown 0x99, 5, none, some [0, 0]⟩ ∧
      pduRecord testTrailer [0x02, 0x04, 0x00, 0x00] = ⟨.truncated, 0, 0x02, .unknown 0x02, 4, none, some [0]⟩ := by
  decide +kernel

/-- V43-5, its first and third check values. -/
theorem test_crc_check :
    (crc ⟨.w32, 0x04C11DB7#32, 0xFFFFFFFF#32, 0xFFFFFFFF#32, true, true⟩
      [0x31, 0x32, 0x33, 0x34, 0x35, 0x36, 0x37, 0x38, 0x39]).toNat = 0xCBF43926 ∧
    (crc testParams.crc [0x31, 0x32, 0x33, 0x34, 0x35, 0x36, 0x37, 0x38, 0x39]).toNat = 0x29B1 := by
  decide +kernel

/-- V43-1 and V43-2. -/
theorem test_identifiers :
    idEq (List.replicate 12 0x00) (List.replicate 12 0x00) = true ∧
      idEq (List.replicate 17 0x00) (List.replicate 12 0x00) = false ∧
      idClass (List.replicate 12 0xFF) = .broadcast ∧ idClass (List.replicate 11 0xFF ++ [0xFE]) = .ordinary ∧
      idClass (List.replicate 17 0x00) = .null := by decide

/-- V43-3 and V43-4. -/
theorem test_addresses :
    addrClass 0 false = .master ∧ addrClass 1 false = .slave ∧ addrClass 62 false = .slave ∧
      addrClass 63 false = .intermediate ∧ addrClass 64 true = .invalid ∧ addrClass 254 true = .invalid ∧
      addrClass 0xFF true = .broadcast ∧ addrClass 0xFF false = .invalid := by decide

/-! ### Registers -/

/-- V40-2, V40-8 and P1: STATUS before an EMIT, with one record, with a full queue, with both. -/
theorem test_status :
    csrRead testParams (withBytes [0x02, 0x03, 0x00]) 0x04 = 0x08 ∧ csrRead testParams (emitted [] pingRec) 0x04 = 0x03 ∧
      csrRead testDepth1 (emitted [] pingRec) 0x04 = 0x07 ∧
      csrRead testDepth1 (emitted [0x23, 0x04, 0x00, 0x03] pingRec) 0x04 = 0x0E := by decide

/-- P1 and V40-16. -/
theorem test_levels :
    csrRead testParams (emitted [0x23, 0x04] pingRec) 0x08 = 2 ∧ csrRead testParams (emitted [0x23, 0x04] pingRec) 0x0C = 1 ∧
      csrRead testParams (emitted [0x23, 0x04] pingRec) 0x00 = 0 ∧
      csrRead testParams (emitted [0x23, 0x04] pingRec) 0x10 = 0 ∧
      csrRead testParams (emitted [0x23, 0x04] pingRec) 0x80 = 0 := by decide

/-! ### One step each -/

theorem test_exec_sync :
    exec (.sync ⟨0x40, 3, []⟩) (withBytes [0x40, 0x03, 0x00]) =
      .next (emitted [] ⟨.ok, 0, 0x40, .known .sync, 3, some .empty, none⟩) := by rfl

/-- V41-7 and V41-8. -/
theorem test_exec_apiRevision :
    exec (.apiRevision ⟨0x41, 4, [7]⟩) (withBytes [0x41, 0x04, 0x00, 0x07]) =
        .next (emitted [] ⟨.ok, 0, 0x41, .known .apiRevision, 4, some (.revision 7), none⟩) ∧
      exec (.apiRevision ⟨0x41, 3, []⟩) (withBytes [0x41, 0x03, 0x00]) =
        .next (emitted [] ⟨.ok, 0, 0x41, .known .apiRevision, 3, some .empty, none⟩) := ⟨rfl, rfl⟩

theorem test_exec_ping : exec (.ping ⟨0x02, 3, []⟩) (withBytes [0x02, 0x03, 0x00]) = .next (emitted [] pingRec) := by rfl

/-- V41-21. -/
theorem test_exec_txPacket :
    exec (.txPacket ⟨0x43, 3, []⟩) (withBytes [0x43, 0x03, 0x00]) =
      .next (emitted [] ⟨.truncated, 0, 0x43, .unknown 0x43, 3, none, some []⟩) := by rfl

/-- V42-8, with the record's bytes consumed and the next PDU's kept. -/
theorem test_exec_rxPacket :
    exec (.rxPacket ⟨0x44, 47, testIds ++ [1, 0, 0, 0] ++ [0, 0, 0, 0] ++ [0, 5]⟩)
        (withBytes ([0x44, 0x2F, 0x00] ++ testIds ++ [1, 0, 0, 0] ++ [0, 0, 0, 0] ++ [0, 5] ++ [0x02])) =
      .next (emitted [0x02] ⟨.ok, 0, 0x44, .known .rxPacket, 47, some (.containerHdr (testHdr 1 0 0 5)), some []⟩) := by rfl

/-- V42-10. -/
theorem test_exec_longTxPacket :
    exec (.longTxPacket ⟨0x45, 48, testIds ++ [0, 0] ++ [3, 0, 0, 0] ++ [2, 0] ++ [7] ++ [1, 2]⟩)
        (withBytes ([0x45, 0x30, 0x00] ++ testIds ++ [0, 0] ++ [3, 0, 0, 0] ++ [2, 0] ++ [7] ++ [1, 2])) =
      .next (emitted [] ⟨.ok, 0, 0x45, .known .longTxPacket, 48,
        some (.longHdr ⟨List.replicate 17 0x00, List.replicate 17 0xFF, 3, 2, 7⟩), some [1, 2]⟩) := by rfl

/-- V42-11. -/
theorem test_exec_longRxPacket :
    exec (.longRxPacket ⟨0x46, 45, testIds ++ List.replicate 8 0x00⟩)
        (withBytes ([0x46, 0x2D, 0x00] ++ testIds ++ List.replicate 8 0x00)) =
      .next (emitted [] ⟨.truncated, 0, 0x46, .unknown 0x46, 45, none, some (testIds ++ List.replicate 8 0x00)⟩) := by rfl

/-- V41-17. -/
theorem test_exec_devicePacket :
    exec (.devicePacket ⟨0x47, 5, [1, 2]⟩) (withBytes [0x47, 0x05, 0x00, 0x01, 0x02]) =
      .next (emitted [] ⟨.ok, 0, 0x47, .known .devicePacket, 5, some .empty, none⟩) := by rfl

/-- V41-19. -/
theorem test_exec_register :
    exec (.register ⟨0x48, 3, []⟩) (withBytes [0x48, 0x03, 0x00]) =
      .next (emitted [] ⟨.ok, 0, 0x48, .known .register, 3, some .empty, none⟩) := by rfl

/-- V41-19. -/
theorem test_exec_unregister :
    exec (.unregister ⟨0x49, 3, []⟩) (withBytes [0x49, 0x03, 0x00]) =
      .next (emitted [] ⟨.ok, 0, 0x49, .known .unregister, 3, some .empty, none⟩) := by rfl

/-- V41-9. -/
theorem test_exec_packetfilter :
    exec (.packetfilter ⟨0x4A, 4, [0x0A]⟩) (withBytes [0x4A, 0x04, 0x00, 0x0A]) =
      .next (emitted [] ⟨.ok, 0, 0x4A, .known .packetfilter, 4, some (.filterFlags 0x0A), none⟩) := by rfl

/-- V41-18. -/
theorem test_exec_rawmode :
    exec (.rawmode ⟨0x4B, 4, [1]⟩) (withBytes [0x4B, 0x04, 0x00, 0x01]) =
      .next (emitted [] ⟨.ok, 0, 0x4B, .known .rawmode, 4, some .empty, none⟩) := by rfl

/-- V41-15. -/
theorem test_exec_queryDevices :
    exec (.queryDevices ⟨0x4C, 4, [0x44]⟩) (withBytes [0x4C, 0x04, 0x00, 0x44]) =
      .next (emitted [] ⟨.ok, 2, 0x4C, .known .queryDevices, 4, some (.devices []), none⟩) := by rfl

/-- A QUERY_DSUID of 13 payload bytes: the first 12 are the dSID (41 R100, 42 R112). -/
theorem test_exec_queryDsuid :
    exec (.queryDsuid ⟨0x4D, 16, List.replicate 12 0x11 ++ [0x22]⟩)
        (withBytes ([0x4D, 0x10, 0x00] ++ List.replicate 12 0x11 ++ [0x22])) =
      .next (emitted [] ⟨.ok, 0, 0x4D, .known .queryDsuid, 16, some (.dsid (List.replicate 12 0x11)), none⟩) := by rfl

/-- V41-20. -/
theorem test_exec_queryAddress :
    exec (.queryAddress ⟨0x4E, 4, [5]⟩) (withBytes [0x4E, 0x04, 0x00, 0x05]) =
      .next (emitted [] ⟨.ok, 0, 0x4E, .known .queryAddress, 4, some .empty, none⟩) := by rfl

/-- W2. -/
theorem test_exec_queryBusstate :
    exec (.queryBusstate ⟨0x23, 4, [3]⟩) (withBytes [0x23, 0x04, 0x00, 0x03]) =
      .next (emitted [] ⟨.ok, 0, 0x23, .known .queryBusstate, 4, some (.busStateValue 3), none⟩) := by rfl

/-- V41-25: `length` 4 with three data bytes. -/
theorem test_exec_busChange :
    exec (.busChange ⟨0x50, 50, testIds ++ [3, 0, 0, 0] ++ [0, 0, 0, 0] ++ [4, 1] ++ [0, 0, 0]⟩)
        (withBytes ([0x50, 0x32, 0x00] ++ testIds ++ [3, 0, 0, 0] ++ [0, 0, 0, 0] ++ [4, 1] ++ [0, 0, 0])) =
      .next (emitted [] ⟨.truncated, 0, 0x50, .unknown 0x50, 50, none,
        some (testIds ++ [3, 0, 0, 0] ++ [0, 0, 0, 0] ++ [4, 1] ++ [0, 0, 0])⟩) := by rfl

/-- V41-28. -/
theorem test_exec_busState :
    exec (.busState ⟨0x51, 51, testIds ++ [3, 0, 0, 0] ++ [0, 0, 0, 0] ++ [4, 1] ++ [0, 0, 0, 4]⟩)
        (withBytes ([0x51, 0x33, 0x00] ++ testIds ++ [3, 0, 0, 0] ++ [0, 0, 0, 0] ++ [4, 1] ++ [0, 0, 0, 4])) =
      .next (emitted [] ⟨.ok, 0, 0x51, .known .busState, 51, some (.busStateEvent (testHdr 3 0 4 1) 4), none⟩) := by rfl

/-- V41-10. -/
theorem test_exec_restartBus :
    exec (.restartBus ⟨0x52, 4, [0]⟩) (withBytes [0x52, 0x04, 0x00, 0x00]) =
      .next (emitted [] ⟨.ok, 0, 0x52, .known .restartBus, 4, some (.restartStatus 0), none⟩) := by rfl

/-- V41-6. -/
theorem test_exec_unknown :
    exec (.unknown ⟨0x99, 3, []⟩) (withBytes [0x99, 0x03, 0x00]) =
      .next (emitted [] ⟨.unknown, 0, 0x99, .unknown 0x99, 3, none, some []⟩) := by rfl

/-- V40-4: the PING behind the corrupt header stays. -/
theorem test_exec_corruptHeader :
    exec (.corruptHeader 0x07 0) (withBytes [0x07, 0x00, 0x00, 0x02, 0x03, 0x00]) =
      .next (emitted [0x02, 0x03, 0x00] ⟨.corruptLength, 0, 0x07, .unknown 0x07, 0, none, some []⟩) := by rfl

/-- V40-1 and V40-9. -/
theorem test_exec_push :
    exec (.push 0x03) (withBytes [0x02]) = .next (withBytes [0x02, 0x03]) ∧
      exec (.push 0x02) (withBytes [0x23, 0x04, 0x00, 0x03]) = .next (withBytes [0x23, 0x04, 0x00, 0x03]) := ⟨rfl, rfl⟩

/-- V40-3. -/
theorem test_exec_chunk : exec (.chunk []) State.reset = .next State.reset := by rfl

/-- V40-2. -/
theorem test_exec_emit :
    exec .emit (withBytes [0x02, 0x03, 0x00]) = .next (emitted [] pingRec) ∧
      exec .emit (withBytes [0x02, 0x03]) = .next (withBytes [0x02, 0x03]) := ⟨rfl, rfl⟩

/-- V40-10 and V40-12. -/
theorem test_exec_pop :
    exec .pop (emitted [0x23] pingRec) = .next { State.reset with buf := [0x23], popped := [pingRec] } ∧
      exec .pop State.reset = .next State.reset := ⟨rfl, rfl⟩

/-- V40-11: a queued record stays. -/
theorem test_exec_streamReset : exec .streamReset (emitted [0x23, 0x04, 0x00] pingRec) = .next (emitted [] pingRec) := by rfl

/-- V40-13. -/
theorem test_exec_reset : exec .reset (emitted [0x23] pingRec) = .next State.reset := by rfl

/-- V40-16, and P1's BUF_LEVEL. -/
theorem test_exec_rd :
    exec (.rd 0x80) State.reset = .next { State.reset with reads := [0] } ∧
      exec (.rd 0x08) (withBytes [0x23, 0x04]) = .next { withBytes [0x23, 0x04] with reads := [2] } := ⟨rfl, rfl⟩

/-- V40-14 and V40-15. -/
theorem test_exec_wr :
    exec (.wr 0x10 0xFFFFFF03) (withBytes [0x02]) = .next (withBytes [0x02, 0x03]) ∧
      exec (.wr 0x00 0x3) (emitted [0x02] pingRec) = .next State.reset := ⟨rfl, rfl⟩

/-! ### Steps -/

/-- The table word of PING runs as the first instruction after reset, and so does QUERY_BUSSTATE's. -/
theorem test_withFetchWord :
    decodeTableWord 8 0x02 = some (.ping ⟨0x02, 3, []⟩) ∧ decodeTableWord 8 0x23 = some (.queryBusstate ⟨0x23, 3, []⟩) ∧
      step (State.reset.withFetchWord 8 0x02) = .next (emitted [] pingRec) := ⟨rfl, rfl, rfl⟩

/-- Without given turns the engine goes before the host (log entry 3). -/
theorem test_step_engine_first :
    step { withBytes [0x02, 0x03, 0x00] with hostOps := [.push 0x23] } =
      .next { emitted [] pingRec with hostOps := [.push 0x23] } := by rfl

/-- A chunk goes in one byte a step (log entry 8). -/
theorem test_step_chunk :
    step { State.reset with hostOps := [.chunk [0x02, 0x03], .pop] } =
      .next { withBytes [0x02] with hostOps := [.chunk [0x03], .pop] } := by rfl

/-- A PUSH on a port turn while a PDU waits is not lost (70 R150), and the run is not over (70 R157). -/
theorem test_step_port_push_waits :
    step { withBytes [0x02, 0x03, 0x00] with hostOps := [.pop], turns := [.port (.push 0x23)] } =
        .next { withBytes [0x02, 0x03, 0x00] with hostOps := [.pop, .push 0x23] } ∧
      ¬ Final { withBytes [0x02, 0x03, 0x00] with hostOps := [.pop, .push 0x23] } ∧
      ¬ Final { State.reset with turns := [.port (.push 0x23)] } :=
  ⟨rfl, fun h => absurd h.1 (by decide), fun h => absurd h.2.1 (by decide)⟩

/-- An 8-bit read of STATUS (10 R25). -/
theorem test_step_refused :
    step { State.reset with hostOps := [.read 0x04 8] } = .refused (.csrWidth 8) ∧
      step { State.reset with turns := [.port (.write 0x12 32 0)] } = .refused (.csrUnaligned 0x12) := ⟨rfl, rfl⟩

/-! ### Witnesses: states and operands that meet the hypotheses of each statement -/

theorem room_of_empty {s : State} (h : s.outq = []) : s.outq.length < Config.params.outDepth := by
  rw [h]
  exact Nat.succ_pos _

/-- With a trailer and without. -/
theorem test_witness_EncodedInstructionsDecodeBack :
    (WellFormed testTrailer (.ping ⟨0x02, 5, []⟩) ∧ encodePdu testTrailer (.ping ⟨0x02, 5, []⟩) ≠ []) ∧
      WellFormed testParams (.corruptHeader 0x02 0) ∧ encodePdu testParams (.corruptHeader 0x02 0) ≠ [] := by
  decide +kernel

theorem test_witness_DecodedInstructionsEncodeBack :
    decodePdu testParams [0x99, 0x03, 0x00, 0x02] = .ok (.unknown ⟨0x99, 3, []⟩, [0x02]) := by rfl

theorem test_witness_HostTransactionsDecodeBack :
    WellFormed testParams (.wr 0xFC 5) ∧ encodeTransaction (.wr 0xFC 5) = some (.write 0xFC 32 5) := by decide

/-- Both clauses. -/
theorem test_witness_StepRunsTheBufferedInstruction :
    ∃ s : State, decodePdu Config.params s.buf = .ok (.ping ⟨0x02, 3, []⟩, []) ∧
      s.outq.length < Config.params.outDepth ∧ s.turns = [] ∧ ({ s with turns := [.engine] } : State).turns = .engine :: [] :=
  ⟨withBytes [0x02, 0x03, 0x00], rfl, room_of_empty rfl, rfl, rfl⟩

/-- Each clause, with the operation enabled (a PUSH, a RESET) and not (a POP, a PUSH). -/
theorem test_witness_StepPerformsHostOperations :
    (∃ s : State, s.hostOps = .push 0x02 :: [] ∧ s.turns = [] ∧ emitEnabled Config.params s = false ∧
      decodeTransaction (.push 0x02) = .ok (.push 0x02) ∧ enabled Config.params s (.push 0x02) = true) ∧
    (∃ s : State, s.hostOps = .pop :: [] ∧ s.turns = .host :: [] ∧ decodeTransaction .pop = .ok .pop ∧
      enabled Config.params s .pop = false) ∧
    (∃ s : State, s.turns = .port .reset :: [] ∧ decodeTransaction .reset = .ok .reset ∧
      enabled Config.params s .reset = true) ∧
    ∃ s : State, s.turns = .port (.push 0x02) :: [] ∧ decodeTransaction (.push 0x02) = .ok (.push 0x02) ∧
      enabled Config.params s (.push 0x02) = false :=
  ⟨⟨{ State.reset with hostOps := [.push 0x02] }, rfl, rfl, rfl, rfl, rfl⟩,
    ⟨{ State.reset with hostOps := [.pop], turns := [.host] }, rfl, rfl, rfl, rfl⟩,
    ⟨{ State.reset with turns := [.port .reset] }, rfl, rfl, rfl⟩,
    { withBytes [0x02, 0x03, 0x00] with turns := [.port (.push 0x02)] }, rfl, rfl, rfl⟩

theorem test_witness_IdleTurnsChangeNothing :
    (∃ s : State, s.turns = .engine :: [] ∧ emitEnabled Config.params s = false) ∧
      (∃ s : State, s.turns = .host :: [] ∧ s.hostOps = []) ∧
      ∃ s : State, s.turns = [] ∧ s.hostOps = [] ∧ s.buf = [0x02, 0x03] ∧ emitEnabled Config.params s = false :=
  ⟨⟨{ State.reset with turns := [.engine] }, rfl, rfl⟩, ⟨{ State.reset with turns := [.host] }, rfl, rfl⟩,
    withBytes [0x02, 0x03], rfl, rfl, rfl, rfl⟩

theorem test_witness_EnabledEmitFires :
    ∃ s t : State, s.turns = [.host] ∧ runSteps s.turns.length s = .next t ∧ emitEnabled Config.params t = true :=
  ⟨{ withBytes [0x02, 0x03] with hostOps := [.push 0x00], turns := [.host] }, withBytes [0x02, 0x03, 0x00], rfl, rfl, rfl⟩

/-- Both clauses, a read and a write, on a port turn, on a host turn, and with no turns given. -/
theorem test_witness_BadAccessesAreRefused :
    (∃ s, TakesNext s (.read 0x04 16) ∧ (16 : Nat) ≠ 32) ∧
      (∃ s, TakesNext s (.write 0x03 32 1) ∧ (0x03 : Byte).toNat % 4 ≠ 0) ∧
      ∃ s : State, TakesNext s (.write 0x03 8 1) ∧ s.turns = [] ∧ (8 : Nat) ≠ 32 :=
  ⟨⟨{ State.reset with turns := [.port (.read 0x04 16)] }, .inl ⟨[], rfl⟩, by decide⟩,
    ⟨{ State.reset with hostOps := [.write 0x03 32 1], turns := [.host] }, .inr ⟨[], rfl, .inl ⟨[], rfl⟩⟩, by decide⟩,
    { State.reset with hostOps := [.write 0x03 8 1] }, .inr ⟨[], rfl, .inr ⟨rfl, rfl⟩⟩, rfl, by decide⟩

theorem test_witness_BufferedRowIsEmit :
    decodePdu Config.params (withBytes [0x07, 0x02, 0x00, 0x02]).buf = .ok (.corruptHeader 0x07 2, [0x02]) := by rfl

theorem pingRec_legal : RecordLegal Config.params pingRec :=
  ⟨by decide, .ping, .empty, rfl, Config.params.codes.ping.symm, rfl, by
    show CommandId.ping ≠ .txPacket ∧ CommandId.ping ≠ .rxPacket ∧ CommandId.ping ≠ .longTxPacket ∧ CommandId.ping ≠ .longRxPacket
    decide, rfl, rfl⟩

/-- A state with a PDU buffered and one record with the host, whose step is an EMIT. -/
theorem test_witness_EveryStepKeepsTheInvariant :
    ∃ s t : State, Inv s ∧ s.popped = [pingRec] ∧ step s = .next t ∧ t.outq = [pingRec] :=
  ⟨{ withBytes [0x02, 0x03, 0x00] with popped := [pingRec] }, _,
    ⟨fun _ => by decide, Nat.zero_le _, fun _ h => absurd h (by simp [withBytes, State.reset]), fun r h => by
      rw [List.mem_singleton.1 h]
      exact pingRec_legal⟩, rfl, rfl, rfl⟩

theorem test_witness_OnePduFillsTheBuffer :
    ∃ s t : State, BufferFits s.buf ∧ complete s.buf = true ∧ s.outq.length < Config.params.outDepth ∧ exec .emit s = .next t :=
  ⟨withBytes [0x02, 0x03, 0x00], _, fun _ => by decide, rfl, room_of_empty rfl, rfl⟩

theorem test_witness_StreamingConservesRecords :
    ∃ s t : State, StreamOnly s ∧ s.hostOps = [.chunk [0x03, 0x00], .pop] ∧ step s = .next t :=
  ⟨{ withBytes [0x02] with hostOps := [.chunk [0x03, 0x00], .pop], turns := [.engine] }, _, ⟨by decide, by decide⟩, rfl, rfl⟩

/-- The stream `02 03 00 99`, once as four pushes and once as two chunks. -/
theorem test_witness_SplitInvariance :
    ∃ (s s' t t' : State) (m n : Nat), StreamOnly s ∧ StreamOnly s' ∧ pendingStream s = pendingStream s' ∧
      s.popped ++ s.outq = s'.popped ++ s'.outq ∧ runSteps m s = .next t ∧ runSteps n s' = .next t' ∧
      Final t ∧ Final t' ∧ complete t.buf = false ∧ complete t'.buf = false ∧ t.outq = [pingRec] :=
  ⟨{ State.reset with hostOps := [.push 0x02, .push 0x03, .push 0x00, .push 0x99] },
    { State.reset with hostOps := [.chunk [0x02, 0x03], .chunk [0x00, 0x99]] }, emitted [0x99] pingRec,
    emitted [0x99] pingRec, 5, 6, ⟨by decide, by decide⟩, ⟨by decide, by decide⟩, rfl, rfl, rfl, rfl, ⟨rfl, rfl, rfl⟩,
    ⟨rfl, rfl, rfl⟩, rfl, rfl, rfl⟩

/-- A POP, and the writes to CTRL that the statement takes in. -/
theorem test_witness_RecordsLeaveInOrder :
    (∃ t, exec .pop (emitted [] pingRec) = .next t ∧ Instr.pop ≠ .reset) ∧
      ∃ t, exec (.wr 0x00 1) (emitted [] pingRec) = .next t ∧
        ∀ v, Instr.wr 0x00 1 = .wr 0x00 v → v.getLsbD 1 = false :=
  ⟨⟨_, rfl, by decide⟩, _, rfl, fun v h => by cases h; decide⟩

theorem test_witness_RecordIsAFunctionOfThePdu :
    (Instr.sync ⟨0x40, 3, []⟩).pdu?.isSome = true ∧ State.reset.outq.length < Config.params.outDepth :=
  ⟨rfl, room_of_empty rfl⟩

theorem test_witness_FullQueueHoldsEmit :
    ∃ s : State, s.buf = [0x02, 0x03, 0x00] ∧ Config.params.outDepth ≤ s.outq.length :=
  ⟨{ withBytes [0x02, 0x03, 0x00] with outq := List.replicate Config.params.outDepth pingRec }, rfl, by simp⟩

/-- Each clause, at a boundary: length field 2; a trailer with one byte too few; a wrong one; a known and an unknown command,
with a trailer and without. -/
theorem test_witness_StatusFollowsPriority :
    (le16 [0x07, 0x02, 0x00] 1).toNat < 3 ∧
    (testTrailer.crcAttach = .trailer ∧ 3 ≤ (le16 [0x02, 0x04, 0x00, 0x00] 1).toNat ∧
      (le16 [0x02, 0x04, 0x00, 0x00] 1).toNat - 3 < testTrailer.crc.width.bytes) ∧
    checkTrailer testTrailer.crc [0x99, 0x05, 0x00, 0x00, 0x00] 5 = .mismatch ∧
    (∃ q, checkTrailer testTrailer.crc [0x02, 0x05, 0x00, 0x09, 0x5D] 5 = .good [0x02, 0x05, 0x00] ∧
      q = pduOfBytes [0x02, 0x05, 0x00] ∧ testTrailer.codes.code .ping = q.cmd) ∧
    testParams.crcAttach = .none ∧ ∀ c, testParams.codes.code c ≠ (pduOfBytes [0x99, 0x03, 0x00]).cmd := by
  refine ⟨by decide, by decide, by decide +kernel, ⟨_, by decide +kernel, rfl, rfl⟩, rfl, fun c => ?_⟩
  cases c <;> decide

theorem test_witness_OnlyListedCommandsTruncate :
    (commandRecord testParams .busChange ⟨0x50, 4, [0x00]⟩).status = .truncated := by rfl

/-- The hypotheses of `RowOf` and `EmitsRecord`, which every row statement has. -/
theorem test_witness_NoDecodeRowsGiveEmptyRecords :
    (⟨0x40, 3, []⟩ : Pdu).cmd = testParams.codes.code .sync ∧
      (withBytes [0x40, 0x03, 0x00]).outq.length < Config.params.outDepth := ⟨rfl, room_of_empty rfl⟩

theorem test_witness_PingGivesAnEmptyRecord :
    (withBytes [0x02, 0x05, 0x00, 0x01, 0x02]).outq.length < Config.params.outDepth := room_of_empty rfl

/-- Both forms: no payload, and one byte. -/
theorem test_witness_ValueRowsSurfaceTheirByte :
    (⟨0x41, 3, []⟩ : Pdu).payload = [] ∧ (⟨0x41, 4, [7]⟩ : Pdu).payload = 7 :: [] ∧
      State.reset.outq.length < Config.params.outDepth := ⟨rfl, rfl, room_of_empty rfl⟩

/-- Both forms, with the states 0, 1, 5 and 6 on either side of the range. -/
theorem test_witness_QueryBusstateSurfacesTheState :
    (⟨0x23, 3, []⟩ : Pdu).payload = [] ∧ (∀ b : Byte, (⟨0x23, 4, [b]⟩ : Pdu).payload = b :: []) ∧
      stateWarn 0 = 1 ∧ stateWarn 1 = 0 ∧ stateWarn 5 = 0 ∧ stateWarn 6 = 1 := ⟨rfl, fun _ => rfl, by decide⟩

/-- The three clauses, at 0, 1, 11 and 12 bytes. -/
theorem test_witness_QueryDsuidSurfacesTheDsid :
    (⟨0x4D, 3, []⟩ : Pdu).payload = [] ∧ (0 < [0x11#8].length ∧ [0x11#8].length < 12) ∧
      (0 < (List.replicate 11 0x11#8).length ∧ (List.replicate 11 0x11#8).length < 12) ∧
      ∃ (q : Pdu) (id rest : List Byte), id.length = 12 ∧ q.payload = id ++ rest :=
  ⟨rfl, by decide, by decide, ⟨0x4D, 15, List.replicate 12 0x11⟩, List.replicate 12 0x11, [], rfl, rfl⟩

/-- Both clauses: two entries with no byte left, with 11 left, and no entry with one byte. -/
theorem test_witness_QueryDevicesSurfacesWholeEntries :
    (⟨0x4C, 3, []⟩ : Pdu).payload = [] ∧
      ((∀ id ∈ [List.replicate 12 0x11#8, List.replicate 12 0x22], id.length = 12) ∧ ([] : List Byte).length < 12 ∧
        [List.replicate 12 0x11#8, List.replicate 12 0x22].flatten ++ [] ≠ []) ∧
      ((∀ id ∈ [List.replicate 12 0x11#8], id.length = 12) ∧ (List.replicate 11 0x33#8).length < 12 ∧
        [List.replicate 12 0x11#8].flatten ++ List.replicate 11 0x33 ≠ []) ∧
      (∀ id ∈ ([] : List (List Byte)), id.length = 12) ∧ [0x44#8].length < 12 ∧ ([] : List (List Byte)).flatten ++ [0x44] ≠ [] :=
  ⟨rfl, by decide, by decide, by decide, by decide, by decide⟩

theorem testIdsFit : IdsFit (List.replicate 17 0x00) (List.replicate 17 0xFF) := ⟨rfl, rfl⟩

/-- The clauses: 43 bytes; `length` 128; 127 with 126 bytes; 127 with 127; 0 with none. -/
theorem test_witness_ContainerRowsDecode :
    (⟨0x43, 46, List.replicate 43 0⟩ : Pdu).payload.length < 44 ∧
    (∃ q : Pdu, q.payload = containerHeadBytes (List.replicate 17 0x00) (List.replicate 17 0xFF) 1 0 128 5 ++ [] ∧
      127 < (128 : Byte).toNat) ∧
    (∃ q : Pdu, q.payload =
        containerHeadBytes (List.replicate 17 0x00) (List.replicate 17 0xFF) 1 0 127 5 ++ List.replicate 126 0x5A ∧
      (127 : Byte).toNat ≤ 127 ∧ (List.replicate 126 0x5A#8).length < (127 : Byte).toNat) ∧
    (∃ q : Pdu, q.payload =
        containerHeadBytes (List.replicate 17 0x00) (List.replicate 17 0xFF) 1 0 127 5 ++ List.replicate 127 0x5A ∧
      (127 : Byte).toNat ≤ (List.replicate 127 0x5A#8).length) ∧
    ∃ q : Pdu, q.payload = containerHeadBytes (List.replicate 17 0x00) (List.replicate 17 0xFF) 1 0 0 5 ++ [] ∧
      (0 : Byte).toNat ≤ ([] : List Byte).length :=
  ⟨by decide, ⟨⟨0x43, 47, _⟩, rfl, by decide⟩, ⟨⟨0x43, 173, _⟩, rfl, by decide, by simp⟩,
    ⟨⟨0x43, 174, _⟩, rfl, by simp⟩, ⟨0x43, 47, _⟩, rfl, by decide⟩

/-- The clauses: 42 bytes; `length` 8600; 8599 with 8598 bytes; 8599 with 8599. -/
theorem test_witness_LongPacketRowsDecode :
    (⟨0x45, 45, List.replicate 42 0⟩ : Pdu).payload.length < 43 ∧
    (∃ q : Pdu, q.payload = longHeadBytes (List.replicate 17 0x00) (List.replicate 17 0xFF) 0 1 8600 5 ++ [] ∧
      Config.params.longDataMax < (8600 : Half).toNat) ∧
    (∃ q : Pdu, q.payload =
        longHeadBytes (List.replicate 17 0x00) (List.replicate 17 0xFF) 0 1 8599 5 ++ List.replicate 8598 0x5A ∧
      (8599 : Half).toNat ≤ Config.params.longDataMax ∧ (List.replicate 8598 0x5A#8).length < (8599 : Half).toNat) ∧
    ∃ q : Pdu, q.payload =
        longHeadBytes (List.replicate 17 0x00) (List.replicate 17 0xFF) 0 1 8599 5 ++ List.replicate 8599 0x5A ∧
      (8599 : Half).toNat ≤ (List.replicate 8599 0x5A#8).length :=
  ⟨by decide, ⟨⟨0x45, 46, _⟩, rfl, by decide⟩, ⟨⟨0x45, 8644, _⟩, rfl, by decide, by rw [List.length_replicate]; decide⟩,
    ⟨0x45, 8645, _⟩, rfl, by rw [List.length_replicate]; decide⟩

/-- The clauses of a bus event: none, 1 and 43 bytes; `length` 3 with 4 bytes, 4 with 3, and 4 with 4. -/
theorem test_witness_BusChangeDecodes :
    (⟨0x50, 3, []⟩ : Pdu).payload = [] ∧ (0 < [0x11#8].length ∧ [0x11#8].length < 44) ∧
    (0 < (List.replicate 43 0x11#8).length ∧ (List.replicate 43 0x11#8).length < 44) ∧
    (∃ q : Pdu, q.payload =
        containerHeadBytes (List.replicate 17 0x00) (List.replicate 17 0xFF) 1 0 3 5 ++ [0, 0, 0, 1] ∧ (3 : Byte).toNat < 4) ∧
    (∃ q : Pdu, q.payload =
        containerHeadBytes (List.replicate 17 0x00) (List.replicate 17 0xFF) 1 0 4 5 ++ [0, 0, 0] ∧
      [0x00#8, 0x00, 0x00].length < 4) ∧
    ∃ q : Pdu, q.payload =
        containerHeadBytes (List.replicate 17 0x00) (List.replicate 17 0xFF) 1 0 4 5 ++ 0 :: 0 :: 0 :: 1 :: [] ∧
      4 ≤ (4 : Byte).toNat :=
  ⟨rfl, by decide, by decide, ⟨⟨0x50, 51, _⟩, rfl, by decide⟩, ⟨⟨0x50, 50, _⟩, rfl, by decide⟩, ⟨0x50, 51, _⟩, rfl, by decide⟩

theorem test_witness_BusStateDecodes :
    (⟨0x51, 3, []⟩ : Pdu).payload = [] ∧ (0 < (List.replicate 43 0x11#8).length ∧ (List.replicate 43 0x11#8).length < 44) ∧
    (∃ q : Pdu, q.payload =
        containerHeadBytes (List.replicate 17 0x00) (List.replicate 17 0xFF) 1 0 3 5 ++ [0, 0, 0, 1] ∧ (3 : Byte).toNat < 4) ∧
    ∃ q : Pdu, q.payload =
        containerHeadBytes (List.replicate 17 0x00) (List.replicate 17 0xFF) 1 0 128 5 ++ 0 :: 0 :: 0 :: 6 :: [] ∧
      4 ≤ (128 : Byte).toNat :=
  ⟨rfl, by decide, ⟨⟨0x51, 51, _⟩, rfl, by decide⟩, ⟨0x51, 51, _⟩, rfl, by decide⟩

/-- A byte outside the image that is not 0x99, and 0x99. -/
theorem test_witness_UnknownRowCarriesThePayload :
    (∀ c, testParams.codes.code c ≠ (⟨0x00, 3, []⟩ : Pdu).cmd) ∧ (⟨0x99, 3, []⟩ : Pdu).cmd = 0x99 :=
  ⟨fun c => by cases c <;> decide, rfl⟩

theorem test_witness_CorruptHeaderConsumesThreeBytes :
    (0 : Half).toNat < 3 ∧ (2 : Half).toNat < 3 ∧ State.reset.outq.length < Config.params.outDepth :=
  ⟨by decide, by decide, room_of_empty rfl⟩

/-- At both ends of the data length. -/
theorem test_witness_ContainerRoundTrip :
    testParams.crcAttach = .none ∧ IdsFit (List.replicate 17 0x00) (List.replicate 17 0xFF) ∧
      (List.replicate 127 0x5A#8).length ≤ 127 ∧ ([] : List Byte).length ≤ 127 := ⟨rfl, testIdsFit, by simp, by simp⟩

theorem test_witness_LongPacketRoundTrip :
    testParams.crcAttach = .none ∧ IdsFit (List.replicate 17 0x00) (List.replicate 17 0xFF) ∧
      (List.replicate 8599 0x5A#8).length ≤ testParams.longDataMax ∧
      (List.replicate 8600 0x5A#8).length ≤ ({ testParams with longMax := .m8600 } : Params).longDataMax :=
  ⟨rfl, testIdsFit, by rw [List.length_replicate]; decide, by rw [List.length_replicate]; decide⟩

theorem test_witness_PadIsIgnored :
    IdsFit (List.replicate 17 0x00) (List.replicate 17 0xFF) ∧
      (longTxPacketRecord testParams ⟨0x45, 47, List.replicate 17 0x00 ++ List.replicate 17 0xFF ++
        leBytes 2 (0xBEEF : Half).toNat ++ [3, 0, 0, 0, 1, 0, 7, 0xAA]⟩).status = .ok ∧
      (longRxPacketRecord testParams ⟨0x46, 47, List.replicate 17 0x00 ++ List.replicate 17 0xFF ++
        leBytes 2 (0xBEEF : Half).toNat ++ [3, 0, 0, 0, 1, 0, 7, 0xAA]⟩).status = .ok := ⟨testIdsFit, rfl, rfl⟩

/-- The three clauses: one payload byte where the trailer takes two; a wrong trailer; the right one. -/
theorem test_witness_CrcStageChecksTheTrailer :
    testTrailer.crcAttach = .trailer ∧
    (3 ≤ (le16 [0x02, 0x04, 0x00, 0x00] 1).toNat ∧ [0x02#8, 0x04, 0x00, 0x00].length - 3 < testTrailer.crc.width.bytes) ∧
    [0x09#8, 0x5D].length = testTrailer.crc.width.bytes ∧ 3 ≤ [0x02#8, 0x05, 0x00].length ∧
    (crc testTrailer.crc [0x02, 0x05, 0x00]).toNat ≠ leNat [0x5D, 0x09] ∧
    (crc testTrailer.crc [0x02, 0x05, 0x00]).toNat = leNat [0x09, 0x5D] := by
  decide +kernel

theorem test_witness_NoCrcWithoutATrailer :
    testParams.crcAttach = .none ∧ 3 ≤ (le16 [0x02, 0x03, 0x00] 1).toNat := by decide

theorem test_witness_IdentifierClasses :
    (List.replicate 17 0x00#8).length = 17 ∧ (List.replicate 12 0xFF#8).length = 12 ∧
      (List.replicate 11 0xFF#8 ++ [0xFE]).length = 12 := by decide

/-- Each clause of PUSH; the full buffer is a whole PDU. -/
theorem test_witness_PushAppendsOneByte :
    (complete (withBytes [0x02, 0x03]).buf = false ∧ BufferFits (withBytes [0x02, 0x03]).buf) ∧
      complete (withBytes [0x02, 0x03, 0x00]).buf = true ∧ (0x102 : Word).setWidth 8 = (0x02 : Byte) :=
  ⟨⟨rfl, fun _ => by decide⟩, rfl, rfl⟩

/-- A chunk of one byte, and a chunk of two; and a buffer that takes none. -/
theorem test_witness_ChunkPushesItsFirstByte :
    complete (withBytes [0x02]).buf = false ∧ complete (withBytes [0x02, 0x03, 0x00]).buf = true := ⟨rfl, rfl⟩

/-- The last byte completes the PDU. -/
theorem test_witness_ChunkPushesAllItsBytes :
    ∃ s : State, s.turns = [] ∧ s.hostOps = .chunk [0x02, 0x03, 0x00] :: [.pop] ∧
      ∀ k < 3, complete (s.buf ++ [0x02#8, 0x03, 0x00].take k) = false :=
  ⟨{ State.reset with hostOps := [.chunk [0x02, 0x03, 0x00], .pop] }, rfl, rfl, by decide⟩

/-- Enabled, and not. -/
theorem test_witness_EmitExtractsOnePdu :
    (complete (withBytes [0x02, 0x03, 0x00]).buf = true ∧
      (withBytes [0x02, 0x03, 0x00]).outq.length < Config.params.outDepth) ∧
      ¬ (complete State.reset.buf = true ∧ State.reset.outq.length < Config.params.outDepth) :=
  ⟨⟨rfl, room_of_empty rfl⟩, fun h => by cases h.1⟩

theorem test_witness_PopTakesTheHead : (emitted [] pingRec).outq = pingRec :: [] ∧ State.reset.outq = [] := ⟨rfl, rfl⟩

theorem test_witness_ResetsEmptyTheEngine :
    ((1 : Word).getLsbD 1 = false ∧ (1 : Word).getLsbD 0 = true) ∧ (2 : Word).getLsbD 1 = true := by decide

theorem test_witness_ReadReturnsTheRegister : (0xFC : Byte).toNat % 4 = 0 ∧ (0x05 : Byte).toNat % 4 ≠ 0 := by decide

/-- The clauses: both command bits, bit 0 alone, none; and the offsets 0x04, 0xFC and 0x11. -/
theorem test_witness_WriteActsOnCtrlAndInData :
    (3 : Word).getLsbD 1 = true ∧ ((1 : Word).getLsbD 1 = false ∧ (1 : Word).getLsbD 0 = true) ∧
      ((0xFFFFFFFC : Word).getLsbD 1 = false ∧ (0xFFFFFFFC : Word).getLsbD 0 = false) ∧
      ((0x04 : Byte) ≠ 0x00 ∧ (0x04 : Byte) ≠ 0x10 ∧ (0x04 : Byte).toNat % 4 = 0) ∧
      ((0xFC : Byte) ≠ 0x00 ∧ (0xFC : Byte) ≠ 0x10 ∧ (0xFC : Byte).toNat % 4 = 0) ∧
      (0x11 : Byte) ≠ 0x00 ∧ (0x11 : Byte) ≠ 0x10 ∧ (0x11 : Byte).toNat % 4 ≠ 0 := by decide

theorem test_witness_LevelRegistersAreLengths :
    ({ State.reset with buf := List.replicate 65535 0 } : State).buf.length ≤ 65535 ∧
      (emitted [] pingRec).outq.length ≤ testDepth1.outDepth :=
  ⟨Nat.le_of_eq List.length_replicate, by decide⟩

theorem test_witness_OtherRegistersReadZero :
    (0x14 ≤ (0x14 : Byte).toNat ∧ (0x14 : Byte).toNat % 4 = 0) ∧ 0x14 ≤ (0xFC : Byte).toNat ∧ (0xFC : Byte).toNat % 4 = 0 := by
  decide

end Sys2Proof.Tests
end

section
/-! PROOFS. The family of spec 00: what a DCMD row does depends on its PDU alone (00 R14), and the implementation parameters
(00 R6, R7). -/

namespace Sys2Proof.Machine

open Sys2Proof.Safety

/-- A row that carries a PDU is an EMIT of the PDU's declared length, with a record that no state goes into (41 R85). -/
theorem exec_of_pdu {i : Instr} {q : Pdu} (h : i.pdu? = some q) :
    ∃ r, ∀ s, exec i s = emitRecord Config.params q.len.toNat r s := by
  cases i <;> cases h
  -- the HOST rows carry no PDU; each row left is `emitRecord` of its own record function
  all_goals exact ⟨_, fun _ => rfl⟩

/-- So is a corrupt header, of three bytes (40 R73). -/
theorem exec_corruptHeader (cmd : Byte) (len : Half) (s : State) :
    exec (.corruptHeader cmd len) s = emitRecord Config.params 3 (corruptRecord cmd len) s := rfl

/-- What always ends as `emitRecord` of one record does just that from every state with room. -/
theorem emitsRecord_of_exec {i : Instr} {n : Nat} {r : Record} (h : ∀ s, exec i s = emitRecord Config.params n r s) :
    EmitsRecord i n r := fun s hroom => by
  rw [h s, emitRecord_of_room n r hroom]

/-- Settles O19: every DCMD row, with a PDU or a corrupt header, is an EMIT whose record is fixed before the state. -/
theorem recordIsAFunctionOfThePdu : Obligations.RecordIsAFunctionOfThePdu := by
  rintro i (hpdu | ⟨cmd, len, rfl⟩)
  · obtain ⟨q, hq⟩ := Option.isSome_iff_exists.1 hpdu
    obtain ⟨r, hr⟩ := exec_of_pdu hq
    exact ⟨_, r, emitsRecord_of_exec hr⟩
  · exact ⟨_, _, emitsRecord_of_exec (exec_corruptHeader cmd len)⟩

end Sys2Proof.Machine

namespace Sys2Proof

/-- `OUT_DEPTH` is 1 to 65535 (00 R6). -/
theorem Params.outDepth_range (P : Params) : 1 ≤ P.outDepth ∧ P.outDepth ≤ 65535 :=
  ⟨Nat.succ_pos _, P.queueRoom.isLt⟩

/-- The one bit of `LEAVE_MASK` (00 R6). -/
theorem Params.leaveMask_getLsbD (P : Params) (j : Nat) : P.leaveMask.getLsbD j = decide (j = P.leaveBit.val) := by
  rw [Params.leaveMask, ← BitVec.twoPow_eq, BitVec.getLsbD_twoPow]
  simp [P.leaveBit.isLt, eq_comm]

/-- `LONG_DATA_MAX` is 8599 or 8600 (00 R6). -/
theorem Params.longDataMax_cases (P : Params) : P.longDataMax = 8599 ∨ P.longDataMax = 8600 := by
  unfold Params.longDataMax
  cases P.longMax
  · exact .inl rfl
  · exact .inr rfl

/-- `CRC_WIDTH` is 8, 16 or 32 (00 R6). -/
theorem CrcWidth.bits_cases (w : CrcWidth) : w.bits = 8 ∨ w.bits = 16 ∨ w.bits = 32 := by
  cases w
  · exact .inl rfl
  · exact .inr (.inl rfl)
  · exact .inr (.inr rfl)

/-- Settles O43: the map's type carries the constraints of 00 R7. -/
theorem parametersAreAdmissible : Obligations.ParametersAreAdmissible :=
  fun P => ⟨P.codes.injective, P.codes.ping, P.codes.queryBusstate, P.codes.not99⟩

/-- Settles O55: each range by its own lemma, the constants and the machine's decided parameters by definition. -/
theorem parameterRangesHold : Obligations.ParameterRangesHold := by
  refine ⟨fun P => ?_, rfl, rfl, rfl, rfl, rfl⟩
  obtain ⟨hpos, hmax⟩ := P.outDepth_range
  exact ⟨hpos, hmax, ⟨P.leaveBit, P.leaveBit.isLt, P.leaveMask_getLsbD⟩, P.longDataMax_cases, P.crc.width.bits_cases⟩

end Sys2Proof
end

section
/-! PROOFS. The family of spec 10: which records the decode can make (10 R21 to R24, 60 R131 to R133). -/

namespace Sys2Proof.Machine

open Sys2Proof.Safety

/-- The warning of a Container's `length` says just whether it is over the capacity (42 R105). -/
theorem containerWarn_cases (h : ContainerHdr) :
    (127 < h.length.toNat ∧ containerWarn h = invalidField) ∨ (h.length.toNat ≤ 127 ∧ containerWarn h = noWarn) :=
  (Nat.lt_or_ge 127 h.length.toNat).imp (fun hl => ⟨hl, lengthWarn_of_over hl⟩) (fun hl => ⟨hl, lengthWarn_of_le hl⟩)

/-- The same of a LongPacket's (42 R109). -/
theorem longWarn_cases (P : Params) (h : LongHdr) :
    (P.longDataMax < h.length.toNat ∧ longWarn P h = invalidField) ∨
      (h.length.toNat ≤ P.longDataMax ∧ longWarn P h = noWarn) :=
  (Nat.lt_or_ge P.longDataMax h.length.toNat).imp (fun hl => ⟨hl, longWarn_of_over hl⟩) (fun hl => ⟨hl, longWarn_of_le hl⟩)

/-- The warning of a BusState byte says just whether it is outside 1 to 5 (30 R60). -/
theorem busStateWarn_cases (b : Byte) :
    ((b.toNat < 1 ∨ 5 < b.toNat) ∧ busStateWarn b = invalidField) ∨
      ((1 ≤ b.toNat ∧ b.toNat ≤ 5) ∧ busStateWarn b = noWarn) := by
  rw [busStateWarn_eq, stateWarn]
  split
  · rename_i hb
    exact .inr ⟨hb, rfl⟩
  · rename_i hb
    exact .inl ⟨by omega, rfl⟩

theorem containerData_eq_some {q : Pdu} {h : ContainerHdr} {d : List Byte} (e : containerData q h = some d) :
    h.length.toNat ≤ 127 ∧ d.length = h.length.toNat := by
  rcases Nat.lt_or_ge 127 h.length.toNat with hl | hl
  · rw [containerData_of_over hl] at e
    cases e
  · rw [containerData_of_le hl] at e
    exact ⟨hl, (memRead_eq_some e).2.2⟩

theorem longData_eq_some {P : Params} {q : Pdu} {h : LongHdr} {d : List Byte} (e : longData P q h = some d) :
    h.length.toNat ≤ P.longDataMax ∧ d.length = h.length.toNat := by
  rcases Nat.lt_or_ge P.longDataMax h.length.toNat with hl | hl
  · rw [longData_of_over hl] at e
    cases e
  · rw [longData_of_le hl] at e
    exact ⟨hl, (memRead_eq_some e).2.2⟩

/-- A data byte that can be read lies inside the declared length (42 R107). -/
theorem lt_of_containerDataByte {q : Pdu} {h : ContainerHdr} {i : Nat} {b : Byte} (e : containerDataByte q h i = some b) :
    i < h.length.toNat := by
  by_contra hl
  rw [containerDataByte_of_le (Nat.not_lt.1 hl)] at e
  cases e

/-- What a rule may answer so that its command's record is legal (10 R22, 60 R132, R133). -/
def DecodedFits (P : Params) (c : CommandId) : Decoded → Prop
  | .done w f n => FieldsFit P c f ∧ NestedFits f n ∧ WarnFits f w
  | .raised w => w = noWarn ∨ w = invalidField

/-- The record of a fitting answer is legal. -/
theorem decodedRecord_legal {P : Params} {c : CommandId} {q : Pdu} {d : Decoded} (hlen : 3 ≤ q.len.toNat)
    (hcode : P.codes.code c = q.cmd) (hd : DecodedFits P c d) : RecordLegal P (decodedRecord c q d) := by
  cases d with
  | done w f n =>
    obtain ⟨hf, hn, hw⟩ := hd
    exact ⟨hlen, c, f, rfl, hcode.symm, rfl, hf, hn, hw⟩
  | raised w => exact ⟨hlen, rfl, rfl, rfl, hd⟩

/-- The request form, for the commands that may have Empty fields (41 R82, R83). -/
theorem decodedFits_empty {P : Params} {c : CommandId} (hc : FieldsFit P c .empty) :
    DecodedFits P c (.done noWarn .empty none) := ⟨hc, rfl, rfl⟩

theorem oneByteResponse_fits {P : Params} {c : CommandId} {warn : Byte → Warn} {field : Byte → Fields} (q : Pdu)
    (hempty : FieldsFit P c .empty)
    (hbyte : ∀ b, FieldsFit P c (field b) ∧ NestedFits (field b) none ∧ WarnFits (field b) (warn b)) :
    DecodedFits P c (oneByteResponse q warn field) := by
  unfold oneByteResponse
  split
  · exact decodedFits_empty hempty
  · split
    · exact hbyte _
    · exact .inl rfl

theorem fullContainer_fits {P : Params} {c : CommandId} (q : Pdu)
    (hc : ∀ h, IdsFit h.dst h.src → h.length.toNat ≤ 127 → FieldsFit P c (.containerHdr h)) :
    DecodedFits P c (fullContainer q) := by
  unfold fullContainer
  split
  · exact .inl rfl
  · rename_i h hh
    split
    · rename_i d hd
      obtain ⟨hle, hlen⟩ := containerData_eq_some hd
      exact ⟨hc h (containerHdr_idsFit hh) hle, ⟨d, rfl, hlen⟩, lengthWarn_of_le hle⟩
    · exact (containerWarn_cases h).symm.imp And.right And.right

theorem fullLongPacket_fits {P : Params} {c : CommandId} (q : Pdu)
    (hc : ∀ h, IdsFit h.dst h.src → h.length.toNat ≤ P.longDataMax → FieldsFit P c (.longHdr h)) :
    DecodedFits P c (fullLongPacket P q) := by
  unfold fullLongPacket
  split
  · exact .inl rfl
  · rename_i h hh
    split
    · rename_i d hd
      obtain ⟨hle, hlen⟩ := longData_eq_some hd
      exact ⟨hc h (longHdr_idsFit hh) hle, ⟨d, rfl, hlen⟩, longWarn_of_le hle⟩
    · exact (longWarn_cases P h).symm.imp And.right And.right

theorem busEvent_fits {P : Params} {c : CommandId} {warn : Byte → Warn} {field : ContainerHdr → Byte → Fields} (q : Pdu)
    (hempty : FieldsFit P c .empty)
    (hevent : ∀ h b, IdsFit h.dst h.src → 4 ≤ h.length.toNat →
      FieldsFit P c (field h b) ∧ NestedFits (field h b) none ∧ WarnFits (field h b) (containerWarn h ||| warn b)) :
    DecodedFits P c (busEvent q warn field) := by
  unfold busEvent
  split
  · exact decodedFits_empty hempty
  · split
    · exact .inl rfl
    · rename_i h hh
      split
      · rename_i b hb
        exact hevent h b (containerHdr_idsFit hh) (lt_of_containerDataByte hb)
      · exact (containerWarn_cases h).symm.imp And.right And.right

/-- QUERY_DSUID answers Empty, one dSID of 12 bytes, or Truncated (41 R100). -/
theorem queryDsuidRecord_legal {P : Params} {q : Pdu} (hlen : 3 ≤ q.len.toNat) (hcode : P.codes.code .queryDsuid = q.cmd) :
    RecordLegal P (queryDsuidRecord q) := by
  refine decodedRecord_legal hlen hcode ?_
  split
  · exact decodedFits_empty (by simp [FieldsFit])
  · split
    · rename_i id hid
      exact ⟨(memRead_eq_some hid).2.2, rfl, rfl⟩
    · exact .inl rfl

/-- QUERY_DEVICES answers Empty, or dSIDs of 12 bytes each with at most PARTIAL_ENTRY (41 R99). -/
theorem queryDevicesRecord_legal {P : Params} {q : Pdu} (hlen : 3 ≤ q.len.toNat)
    (hcode : P.codes.code .queryDevices = q.cmd) : RecordLegal P (queryDevicesRecord q) := by
  refine decodedRecord_legal hlen hcode ?_
  split
  · exact decodedFits_empty (by simp [FieldsFit])
  · split
    · rename_i ids off hids
      exact ⟨dsidLoop_length _ _ _ _ _ hids (by simp), rfl, ite_eq_or_eq _ _ _⟩
    · exact .inl rfl

/-- BUS_CHANGE's warning is its header's (41 R102). -/
theorem warnFits_busChange (h : ContainerHdr) (fb : Byte) (leave : Bool) :
    WarnFits (.busChange h fb leave) (containerWarn h ||| noWarn) := by
  show (containerWarn h ||| noWarn = invalidField ↔ _) ∧ _
  rcases containerWarn_cases h with ⟨hl, e⟩ | ⟨hl, e⟩ <;> rw [e]
  · exact ⟨iff_of_true rfl hl, .inl rfl⟩
  · exact ⟨iff_of_false (by decide) (by omega), .inr rfl⟩

theorem warnFits_busStateValue (b : Byte) : WarnFits (.busStateValue b) (busStateWarn b) := by
  show (busStateWarn b = invalidField ↔ _) ∧ _
  rcases busStateWarn_cases b with ⟨hb, e⟩ | ⟨hb, e⟩ <;> rw [e]
  · exact ⟨iff_of_true rfl hb, .inl rfl⟩
  · exact ⟨iff_of_false (by decide) (by omega), .inr rfl⟩

/-- BUS_STATE's warning is its header's or its BusState byte's (41 R103). -/
theorem warnFits_busStateEvent (h : ContainerHdr) (b : Byte) :
    WarnFits (.busStateEvent h b) (containerWarn h ||| busStateWarn b) := by
  show (containerWarn h ||| busStateWarn b = invalidField ↔ _) ∧ _
  rcases containerWarn_cases h with ⟨hl, e⟩ | ⟨hl, e⟩ <;> rcases busStateWarn_cases b with ⟨hb, e'⟩ | ⟨hb, e'⟩ <;>
    rw [e, e']
  · exact ⟨iff_of_true rfl (.inl hl), .inl rfl⟩
  · exact ⟨iff_of_true rfl (.inl hl), .inl rfl⟩
  · exact ⟨iff_of_true rfl (.inr hb), .inl rfl⟩
  · exact ⟨iff_of_false (by decide) (by omega), .inr rfl⟩

/-- The set bit of LEAVE_MASK means leave (41 R102). -/
theorem leaveFlag_iff (P : Params) (fb : Byte) : leaveFlag P fb = true ↔ fb &&& P.leaveMask ≠ 0 := by
  simp [leaveFlag]

/-- Every command's rule makes a legal record of a PDU with its command byte and a legal length (41 R86 to R104). -/
theorem commandRecord_legal {P : Params} {c : CommandId} {q : Pdu} (hlen : 3 ≤ q.len.toNat)
    (hcode : P.codes.code c = q.cmd) : RecordLegal P (commandRecord P c q) := by
  have legal : ∀ {d}, DecodedFits P c d → RecordLegal P (decodedRecord c q d) := decodedRecord_legal hlen hcode
  have empty : FieldsFit P c .empty → RecordLegal P (emptyRecord c q) := fun hc => legal (decodedFits_empty hc)
  cases c with
  | sync | ping | devicePacket | rawmode | register | unregister | queryAddress => exact empty (by simp [FieldsFit])
  | apiRevision | packetfilter | restartBus =>
    exact legal (oneByteResponse_fits q (by simp [FieldsFit]) fun _ => ⟨trivial, rfl, rfl⟩)
  | queryBusstate =>
    exact legal (oneByteResponse_fits q (by simp [FieldsFit]) fun b => ⟨trivial, rfl, warnFits_busStateValue b⟩)
  | txPacket | rxPacket => exact legal (fullContainer_fits q fun _ hids hle => ⟨hids, hle⟩)
  | longTxPacket | longRxPacket => exact legal (fullLongPacket_fits q fun _ hids hle => ⟨hids, hle⟩)
  | queryDsuid => exact queryDsuidRecord_legal hlen hcode
  | queryDevices => exact queryDevicesRecord_legal hlen hcode
  | busChange =>
    exact legal (busEvent_fits q (by simp [FieldsFit]) fun h fb hids h4 =>
      ⟨⟨hids, h4, leaveFlag_iff P fb⟩, rfl, warnFits_busChange h fb _⟩)
  | busState =>
    exact legal (busEvent_fits q (by simp [FieldsFit]) fun h b hids h4 =>
      ⟨⟨hids, h4⟩, rfl, warnFits_busStateEvent h b⟩)

/-- So is the record of any PDU of legal length, UNKNOWN's among them (41 R84, R85). -/
theorem decodeBody_legal {P : Params} {q : Pdu} (hlen : 3 ≤ q.len.toNat) : RecordLegal P (decodeBody P q) := by
  unfold decodeBody
  split
  · rename_i hl
    exact ⟨hlen, rfl, (lookup_eq_none_iff P q.cmd).1 hl, rfl, rfl, rfl⟩
  · rename_i c hl
    exact commandRecord_legal hlen ((lookup_eq_some_iff P q.cmd c).1 hl)

/-- Without a CRC trailer every record EMIT queues is legal (40 R73, 43 R123). -/
theorem pduRecord_legal {P : Params} (ha : P.crcAttach = .none) (p : List Byte) : RecordLegal P (pduRecord P p) := by
  unfold pduRecord
  split
  · rename_i hl
    exact ⟨hl, rfl, rfl, rfl, rfl⟩
  · rename_i hl
    rw [decodeRecord, ha]
    exact decodeBody_legal (Nat.not_lt.1 hl)

end Sys2Proof.Machine
end

section
/-! PROOFS. What a step can do: an EMIT, an operation of the host, or nothing, with the host's side moved on (20 R43, 40 R71). -/

namespace Sys2Proof.Machine

open Sys2Proof.Safety

/-- The row whose PDU stands in the buffer does what EMIT does (40 R71, 41 R85). -/
theorem exec_of_decodePdu {s : State} {i : Instr} {rest : List Byte}
    (h : decodePdu Config.params s.buf = .ok (i, rest)) : exec i s = exec .emit s := by
  obtain ⟨hc, hf, -⟩ := decodePdu_eq_ok h
  obtain ⟨-, hlen, -⟩ := take_pduSize hc
  rw [exec_emit_of_complete hc]
  rcases decodeFrame_cases hf with ⟨hl, rfl, hr⟩ | ⟨hl, q, rfl, hr, hq⟩
  · rw [exec_corruptHeader, hr, pduSize_of_corrupt (hlen ▸ hl)]
  · -- the machine has no trailer, so the row's PDU is the bytes themselves
    obtain ⟨-, rfl⟩ | ⟨ha, -⟩ := hq
    · have hsize : (pduOfBytes (s.buf.take (pduSize s.buf))).len.toNat = pduSize s.buf :=
        (congrArg BitVec.toNat hlen).trans (pduSize_of_legal (hlen ▸ hl)).symm
      rw [exec_selectCommand, hr, hsize]
    · cases ha

/-- What one agent's move can do: nothing, an EMIT, or the instruction of one host transaction. -/
inductive Move (s : State) : State → Prop where
  | idle : Move s s
  | emit {t : State} : exec .emit s = .next t → Move s t
  | host {t : State} {op : Transaction} {i : Instr} : decodeTransaction op = .ok i → exec i s = .next t → Move s t

/-- The engine's move is an EMIT, whichever row the buffered PDU selects (40 R71). -/
theorem engineTurn_move {s t : State} (h : engineTurn s = .next t) : Move s t := by
  unfold engineTurn at h
  split at h
  · rename_i he
    obtain ⟨i, rest, hd⟩ := decodePdu_of_complete ((emitEnabled_iff _ _).1 he).1
    rw [fetch, hd] at h
    exact .emit (exec_of_decodePdu hd ▸ h)
  · cases h
    exact .idle

/-- The host's move, which may retire its first operation. -/
theorem hostTurn_move {s t : State} (h : hostTurn s = .next t) : ∃ ops, Move (s.withHostOps ops) t := by
  unfold hostTurn at h
  split at h
  · cases h
    exact ⟨s.hostOps, .idle⟩
  · rename_i op rest _
    split at h
    · rename_i i hd
      split at h
      · exact ⟨rest, .host hd h⟩
      · cases h
        exact ⟨s.hostOps, .idle⟩
    · cases h

/-- A move on a port, whose operation may join those pending. -/
theorem portTurn_move {op : Transaction} {s t : State} (h : portTurn op s = .next t) :
    ∃ ops, Move (s.withHostOps ops) t := by
  unfold portTurn at h
  split at h
  · rename_i i hd
    split at h
    · exact ⟨s.hostOps, .host hd h⟩
    · cases h
      exact ⟨_, .idle⟩
  · cases h

/-- Everything a step can do: the pending operations and the turns move on, then one agent's move. -/
theorem step_move {s t : State} (h : step s = .next t) :
    ∃ ops ts, Move ((s.withHostOps ops).withTurns ts) t := by
  unfold step at h
  split at h
  · rename_i ts _
    exact ⟨s.hostOps, ts, engineTurn_move h⟩
  · rename_i ts _
    obtain ⟨ops, hm⟩ := hostTurn_move h
    exact ⟨ops, ts, hm⟩
  · rename_i ts _
    obtain ⟨ops, hm⟩ := portTurn_move h
    exact ⟨ops, ts, hm⟩
  · split at h
    · exact ⟨s.hostOps, s.turns, engineTurn_move h⟩
    · obtain ⟨ops, hm⟩ := hostTurn_move h
      exact ⟨ops, s.turns, hm⟩

/-- A register access that decodes is aligned and 32 bits wide (10 R25). -/
theorem checkAccess_eq_ok {off : Byte} {bits : Nat} {i j : Instr} (h : checkAccess off bits i = .ok j) :
    bits = 32 ∧ alignedOffset off = true ∧ j = i := by
  unfold checkAccess at h
  split at h
  · cases h
  · rename_i hb
    split at h <;> cases h
    rename_i ha
    exact ⟨not_not.1 hb, ha, rfl⟩

end Sys2Proof.Machine
end

section
/-! PROOFS. The invariant of spec 10 sections 2 and 3 under each operation, and under a step. -/

namespace Sys2Proof.Machine

open Sys2Proof.Safety

/-- An accepted byte completes at most the PDU it belongs to (40 R72). -/
theorem inv_pushByte {b : Byte} {s t : State} (hi : Inv s) (h : pushByte b s = .next t) : Inv t := by
  cases hc : complete s.buf with
  | false =>
    rw [pushByte_of_ready b hc] at h
    cases h
    exact ⟨bufferFits_push b hc, hi.2⟩
  | true =>
    rw [pushByte_of_complete b hc] at h
    cases h
    exact hi

/-- A chunk pushes at most its first byte (40 R69). -/
theorem inv_chunk {bs : List Byte} {s t : State} (hi : Inv s) (h : exec (.chunk bs) s = .next t) : Inv t := by
  cases bs with
  | nil =>
    cases h
    exact hi
  | cons b rest =>
    simp only [exec, execChunk] at h
    split at h
    · cases h
      exact hi
    · refine inv_pushByte ?_ h
      split <;> exact hi

/-- EMIT takes the whole buffer, and queues a legal record where there is room (40 R71, R72). -/
theorem inv_emit {s t : State} (hi : Inv s) (h : exec .emit s = .next t) : Inv t := by
  rcases exec_emit_next h with rfl | ⟨hc, hroom, rfl⟩
  · exact hi
  · obtain ⟨hfit, -, hq, hp⟩ := hi
    refine ⟨?_, ?_, ?_, hp⟩
    · exact (drop_pduSize_of_fits hfit hc).symm ▸ bufferFits_nil
    · simpa using hroom
    · exact List.forall_mem_append.2 ⟨hq, by simpa using pduRecord_legal rfl _⟩

/-- POP hands a record of the queue on (40 R75). -/
theorem inv_pop {s t : State} (hi : Inv s) (h : exec .pop s = .next t) : Inv t := by
  rcases popRecord_next h with ⟨-, rfl⟩ | ⟨r, rest, e, rfl⟩
  · exact hi
  · obtain ⟨hfit, hlen, hq, hp⟩ := hi
    rw [e] at hlen hq
    obtain ⟨hr, hrest⟩ := List.forall_mem_cons.1 hq
    exact ⟨hfit, Nat.le_of_succ_le hlen, hrest, List.forall_mem_append.2 ⟨hp, by simpa using hr⟩⟩

theorem inv_clearStream {s : State} (hi : Inv s) : Inv (clearStream s) := ⟨bufferFits_nil, hi.2⟩

theorem inv_clearEngine {s : State} (hi : Inv s) : Inv (clearEngine s) := by
  obtain ⟨-, -, -, hp⟩ := hi
  exact ⟨bufferFits_nil, Nat.zero_le _, List.forall_mem_nil _, hp⟩

theorem inv_writeCtrl {v : Word} {s : State} (hi : Inv s) : Inv (writeCtrl v s) := by
  unfold writeCtrl
  split_ifs
  · exact inv_clearEngine hi
  · exact inv_clearStream hi
  · exact hi

/-- A write is one to CTRL, a PUSH, or nothing (40 R78). -/
theorem inv_wr {off : Byte} {v : Word} {s t : State} (hi : Inv s) (h : exec (.wr off v) s = .next t) : Inv t := by
  simp only [exec, execWr] at h
  split_ifs at h
  · cases h
    exact inv_writeCtrl hi
  · exact inv_pushByte hi h
  · cases h
    exact hi

theorem inv_rd {off : Byte} {s t : State} (hi : Inv s) (h : exec (.rd off) s = .next t) : Inv t := by
  simp only [exec, execRd] at h
  split_ifs at h
  cases h
  exact hi

/-- Every transaction's instruction keeps the invariant. -/
theorem inv_transaction {op : Transaction} {i : Instr} {s t : State} (hd : decodeTransaction op = .ok i) (hi : Inv s)
    (h : exec i s = .next t) : Inv t := by
  cases op with
  | push b =>
    cases hd
    exact inv_pushByte hi h
  | chunk bs =>
    cases hd
    exact inv_chunk hi h
  | pop =>
    cases hd
    exact inv_pop hi h
  | sreset =>
    cases hd
    cases h
    exact inv_clearStream hi
  | reset =>
    cases hd
    cases h
    exact inv_clearEngine hi
  | read off bits =>
    obtain ⟨-, -, rfl⟩ := checkAccess_eq_ok hd
    exact inv_rd hi h
  | write off bits v =>
    obtain ⟨-, -, rfl⟩ := checkAccess_eq_ok hd
    exact inv_wr hi h

theorem inv_move {s t : State} (hi : Inv s) (h : Move s t) : Inv t := by
  cases h with
  | idle => exact hi
  | emit h => exact inv_emit hi h
  | host hd h => exact inv_transaction hd hi h

/-- Settles O14: the invariant does not speak of the pending operations and turns, and every agent's move keeps it. -/
theorem everyStepKeepsTheInvariant : Obligations.EveryStepKeepsTheInvariant := by
  intro s t hi h
  obtain ⟨ops, ts, hm⟩ := step_move h
  exact inv_move (s := (s.withHostOps ops).withTurns ts) hi hm

end Sys2Proof.Machine
end

section
/-! PROOFS. The register block: STATUS, the levels, the registers that read 0, and the accesses it refuses (10 R25 to R31). -/

namespace Sys2Proof.Machine

open Sys2Proof.Safety

/-- A write to an aligned offset that is neither CTRL nor IN_DATA changes nothing (40 R78). -/
theorem exec_wr_ignored {off : Byte} (v : Word) (s : State) (ha : off.toNat % 4 = 0) (hctrl : off ≠ 0x00)
    (hdata : off ≠ 0x10) : exec (.wr off v) s = .next s := by
  have haligned : alignedOffset off = true := by simp [alignedOffset, ha]
  exact (if_pos haligned).trans ((if_neg hctrl).trans (if_neg hdata))

/-- A register bit stands at its own place alone. -/
theorem flagBit_getLsbD (b : Bool) {k : Nat} (hk : k < 32) (i : Nat) :
    (flagBit b k).getLsbD i = (decide (i = k) && b) := by
  cases b with
  | false => simp [flagBit]
  | true =>
    rw [flagBit, if_pos rfl, ← BitVec.twoPow_eq, BitVec.getLsbD_twoPow]
    simp [hk, eq_comm]

/-- Settles O52: each of the four flags is the bit at its place. -/
theorem statusRegisterBits : Obligations.StatusRegisterBits := by
  refine fun P s => ⟨fun i => ?_, fun v => exec_wr_ignored v s (by decide) (by decide) (by decide), ?_⟩
  · show (statusReg P s).getLsbD i = _
    simp (disch := decide) only [statusReg, BitVec.getLsbD_or, flagBit_getLsbD]
    rfl
  · have hdepth : outFull P State.reset = false := decide_eq_false (Nat.ne_of_lt P.outDepth_range.1)
    show statusReg P State.reset = 1
    rw [statusReg, hdepth]
    rfl

/-- BUF_LEVEL's 17 bits hold every length up to BUF_CAP (10 R28). -/
theorem bufLevelReg_toNat {s : State} (h : s.buf.length ≤ 65535) : (bufLevelReg s).toNat = s.buf.length := by
  rw [bufLevelReg, BitVec.toNat_setWidth, BitVec.toNat_ofNat]
  omega

/-- OUT_LEVEL's 16 bits hold every length up to the largest OUT_DEPTH (10 R29). -/
theorem outLevelReg_toNat {s : State} (h : s.outq.length ≤ 65535) : (outLevelReg s).toNat = s.outq.length := by
  rw [outLevelReg, BitVec.toNat_setWidth, BitVec.toNat_ofNat]
  omega

/-- Settles O53: within the bounds neither length is cut by its field, and above its field a level has no bit. -/
theorem levelRegistersAreLengths : Obligations.LevelRegistersAreLengths := by
  refine fun P s => ⟨bufLevelReg_toNat, fun h => outLevelReg_toNat (h.trans P.outDepth_range.2), ?_, ?_, fun v => ⟨?_, ?_⟩,
    rfl, rfl⟩
  · intro i hi
    show (bufLevelReg s).getLsbD i = false
    rw [bufLevelReg, BitVec.getLsbD_setWidth, BitVec.getLsbD_of_ge _ _ hi, Bool.and_false]
  · intro i hi
    show (outLevelReg s).getLsbD i = false
    rw [outLevelReg, BitVec.getLsbD_setWidth, BitVec.getLsbD_of_ge _ _ hi, Bool.and_false]
  · exact exec_wr_ignored v s (by decide) (by decide) (by decide)
  · exact exec_wr_ignored v s (by decide) (by decide) (by decide)

/-- Only STATUS and the levels read anything but 0 (10 R26 to R31). -/
theorem csrRead_of_other (P : Params) (s : State) {off : Byte} (hstatus : off ≠ 0x04) (hbuf : off ≠ 0x08)
    (hout : off ≠ 0x0C) : csrRead P s off = 0 := by
  rw [csrRead, if_neg hstatus, if_neg hbuf, if_neg hout]

/-- Settles O54: an offset from 0x14 on is none of the five that are read or written. -/
theorem otherRegistersReadZero : Obligations.OtherRegistersReadZero := by
  refine fun P s => ⟨rfl, rfl, fun off hge ha => ?_⟩
  have hne : ∀ reg : Byte, reg.toNat < 0x14 → off ≠ reg := by
    rintro reg hlt rfl
    omega
  exact ⟨csrRead_of_other P s (hne _ (by decide)) (hne _ (by decide)) (hne _ (by decide)),
    fun v => exec_wr_ignored v s ha (hne _ (by decide)) (hne _ (by decide))⟩

/-- A step that takes a transaction which is no instruction is refused (60 R134). -/
theorem step_of_takesNext_error {s : State} {t : Transaction} {e : TransactionReject} (h : TakesNext s t)
    (hd : decodeTransaction t = .error e) : step s = .refused (refuseAccess e) := by
  obtain ⟨ts, hts⟩ | ⟨ops, hops, ⟨ts, hts⟩ | ⟨hnil, hemit⟩⟩ := h
  · rw [step_of_port hts, portTurn_of_error hd]
  · rw [step_of_host hts]
    exact hostTurn_of_error hops hd
  · rw [step_of_disabled hnil hemit, hostTurn_of_error hops hd]

theorem checkAccess_of_width {bits : Nat} (off : Byte) (i : Instr) (h : bits ≠ 32) :
    checkAccess off bits i = .error (.width bits) := if_pos h

theorem checkAccess_of_unaligned {off : Byte} (i : Instr) (h : off.toNat % 4 ≠ 0) :
    checkAccess off 32 i = .error (.unaligned off) := by
  simp [checkAccess, alignedOffset, h]

/-- Settles O9: a read and a write decode by the same check of the access, whose error the step answers. -/
theorem badAccessesAreRefused : Obligations.BadAccessesAreRefused := by
  intro s off bits v t ht htakes
  obtain ⟨i, hd⟩ : ∃ i, decodeTransaction t = checkAccess off bits i := by
    rcases ht with rfl | rfl
    · exact ⟨_, rfl⟩
    · exact ⟨_, rfl⟩
  refine ⟨fun hwidth => ?_, ?_⟩
  · exact step_of_takesNext_error htakes (hd.trans (checkAccess_of_width off i hwidth))
  · rintro rfl halign
    exact step_of_takesNext_error htakes (hd.trans (checkAccess_of_unaligned i halign))

end Sys2Proof.Machine
end

section
/-! PROOFS. The family of spec 20: what an instruction does to the records, those queued and those with the host (20 R41, R43,
10 R19). -/

namespace Sys2Proof.Machine

/-- No record is handed to the host, and at most one joins the queue, at its end. -/
def QueuesAtMostOne (s t : State) : Prop :=
  t.popped = s.popped ∧ ∃ added, t.outq = s.outq ++ added ∧ added.length ≤ 1

theorem queuesAtMostOne_of_eq {s t : State} (hpopped : t.popped = s.popped) (houtq : t.outq = s.outq) :
    QueuesAtMostOne s t :=
  ⟨hpopped, [], by simpa using houtq, Nat.zero_le _⟩

theorem queuesAtMostOne_refl (s : State) : QueuesAtMostOne s s := queuesAtMostOne_of_eq rfl rfl

/-- What stands with the host and in the queue is kept in order, the new record last. -/
theorem QueuesAtMostOne.conserves {s t : State} (h : QueuesAtMostOne s t) :
    ∃ added, t.popped ++ t.outq = s.popped ++ s.outq ++ added ∧ added.length ≤ 1 := by
  obtain ⟨hpopped, added, houtq, hlen⟩ := h
  exact ⟨added, by rw [hpopped, houtq, List.append_assoc], hlen⟩

/-- The end of an EMIT queues its record, or waits (40 R71). -/
theorem emitRecord_queuesAtMostOne {P : Params} {n : Nat} {r : Record} {s t : State} (h : emitRecord P n r s = .next t) :
    QueuesAtMostOne s t := by
  rcases emitRecord_next h with ⟨-, rfl⟩ | ⟨-, rfl⟩
  · exact ⟨rfl, [r], rfl, Nat.le_refl 1⟩
  · exact queuesAtMostOne_refl _

/-- A PUSH changes the buffer at most (40 R68). -/
theorem pushByte_queuesAtMostOne {b : Byte} {s t : State} (h : pushByte b s = .next t) : QueuesAtMostOne s t := by
  unfold pushByte at h
  split at h
  · cases h
    exact queuesAtMostOne_refl _
  · cases h
    exact queuesAtMostOne_of_eq rfl rfl

/-- The bytes a CHUNK leaves to the host's next operation are no records (40 R69). -/
theorem chunk_queuesAtMostOne {bs : List Byte} {s t : State} (h : exec (.chunk bs) s = .next t) :
    QueuesAtMostOne s t := by
  cases bs with
  | nil =>
    cases h
    exact queuesAtMostOne_refl _
  | cons b rest =>
    simp only [exec, execChunk] at h
    split at h
    · cases h
      exact queuesAtMostOne_refl _
    · split at h
      · exact pushByte_queuesAtMostOne h
      · exact (pushByte_queuesAtMostOne h :)

theorem emit_queuesAtMostOne {s t : State} (h : exec .emit s = .next t) : QueuesAtMostOne s t := by
  rcases exec_emit_next h with rfl | ⟨-, -, rfl⟩
  · exact queuesAtMostOne_refl _
  · exact ⟨rfl, [_], rfl, Nat.le_refl 1⟩

/-- A read gives the host a register's value and no record (40 R77). -/
theorem rd_queuesAtMostOne {off : Byte} {s t : State} (h : exec (.rd off) s = .next t) : QueuesAtMostOne s t := by
  simp only [exec, execRd] at h
  split at h
  · cases h
    exact queuesAtMostOne_of_eq rfl rfl
  · cases h

/-- Without SOFT_RESET a write to CTRL empties the buffer at most (10 R26). -/
theorem writeCtrl_queuesAtMostOne {v : Word} {s : State} (hsoft : v.getLsbD 1 = false) :
    QueuesAtMostOne s (writeCtrl v s) := by
  rw [writeCtrl, if_neg (ne_true_of_eq_false hsoft)]
  split
  · exact queuesAtMostOne_of_eq rfl rfl
  · exact queuesAtMostOne_refl _

/-- A write is one to CTRL, a PUSH, or nothing (40 R78). -/
theorem wr_queuesAtMostOne {off : Byte} {v : Word} {s t : State} (hsoft : off = 0x00 → v.getLsbD 1 = false)
    (h : exec (.wr off v) s = .next t) : QueuesAtMostOne s t := by
  simp only [exec, execWr] at h
  split_ifs at h with _ hctrl
  · cases h
    exact writeCtrl_queuesAtMostOne (hsoft hctrl)
  · exact pushByte_queuesAtMostOne h
  · cases h
    exact queuesAtMostOne_refl _

/-- Only POP, RESET and RESET's write to CTRL do anything else to the records; a DCMD row is the end of an EMIT (20 R41). -/
theorem exec_queuesAtMostOne {i : Instr} {s t : State} (h : exec i s = .next t) (hpop : i ≠ .pop) (hreset : i ≠ .reset)
    (hsoft : ∀ v, i = .wr 0x00 v → v.getLsbD 1 = false) : QueuesAtMostOne s t := by
  cases i with
  | push b => exact pushByte_queuesAtMostOne h
  | chunk bs => exact chunk_queuesAtMostOne h
  | emit => exact emit_queuesAtMostOne h
  | pop => exact absurd rfl hpop
  | streamReset =>
    cases h
    exact queuesAtMostOne_of_eq rfl rfl
  | reset => exact absurd rfl hreset
  | rd off => exact rd_queuesAtMostOne h
  | wr off v => exact wr_queuesAtMostOne (fun e => hsoft v (e ▸ rfl)) h
  | _ => exact emitRecord_queuesAtMostOne h

/-- A POP moves the queue's head behind the records already popped, so the two in a row stay the same (40 R75). -/
theorem exec_pop_conserves {s t : State} (h : exec .pop s = .next t) : t.popped ++ t.outq = s.popped ++ s.outq := by
  rcases popRecord_next h with ⟨-, rfl⟩ | ⟨r, rest, e, rfl⟩
  · rfl
  · rw [e]
    exact List.append_assoc ..

/-- Settles O18: a POP moves a record from the queue to the host, and every other instruction queues at most one. -/
theorem recordsLeaveInOrder : Obligations.RecordsLeaveInOrder := by
  intro i s t h hreset hsoft
  by_cases hpop : i = .pop
  · subst hpop
    refine ⟨⟨[], ?_, Nat.zero_le _⟩, fun hne => absurd rfl hne⟩
    rw [exec_pop_conserves h, List.append_nil]
  · have hq := exec_queuesAtMostOne h hpop hreset hsoft
    exact ⟨hq.conserves, fun _ => hq.1⟩

end Sys2Proof.Machine
end

section
/-! PROOFS. The family of spec 30: a PDU's bytes and its instruction determine each other, with and without a CRC trailer
(30 R47, R48, R64; 40 R73; 43 R124, R125). -/

namespace Sys2Proof

/-- A framed PDU's bytes with the trailer are one PDU whose payload is followed by the trailer (43 R124). -/
theorem framedBytes_eq_pduBytes (P : Params) (q : Pdu) :
    framedBytes P q = pduBytes q.cmd q.len (q.payload ++ trailerOf P q.bytes) := pduBytes_append ..

@[simp] theorem le16_framedBytes (P : Params) (q : Pdu) : le16 (framedBytes P q) 1 = q.len := by
  rw [framedBytes_eq_pduBytes, le16_pduBytes]

/-- A PDU is framed when its length field counts its bytes and its trailer's (30 R47, 43 R124). -/
theorem framed_iff (P : Params) (q : Pdu) : q.framed P = true ↔ q.len.toNat = (framedBytes P q).length := by
  rw [framedBytes_length, Pdu.framed, beq_iff_eq]

theorem three_le_len_of_framed {P : Params} {q : Pdu} (h : q.framed P = true) : 3 ≤ q.len.toNat := by
  rw [framed_iff, framedBytes_length, Pdu.size] at h
  omega

/-- The instructions with stream bytes are those that carry a PDU, and the corrupt headers (30 R46). -/
theorem pdu_or_corruptHeader_of_encodePdu {P : Params} {i : Instr} (h : encodePdu P i ≠ []) :
    (∃ q, i.pdu? = some q) ∨ ∃ cmd len, i = .corruptHeader cmd len := by
  cases i with
  | corruptHeader cmd len => exact .inr ⟨cmd, len, rfl⟩
  | push | chunk | emit | pop | streamReset | reset | rd | wr => exact absurd rfl h
  | _ => exact .inl ⟨_, rfl⟩

/-! ### From an instruction to its bytes and back -/

/-- A whole PDU at the head of a stream decodes as it does alone, and the rest is left. -/
theorem decodePdu_append {P : Params} {p : List Byte} {i : Instr} (hsize : p.length = pduSize p)
    (h : decodeFrame P p = .ok i) (rest : List Byte) : decodePdu P (p ++ rest) = .ok (i, rest) := by
  have h3 : 3 ≤ p.length := hsize ▸ three_le_pduSize p
  have hc : complete (p ++ rest) = true := complete_append p rest ((complete_iff p).2 ⟨h3, hsize.ge⟩)
  rw [decodePdu, if_pos hc, pduSize_append p rest h3, ← hsize, List.take_left, List.drop_left, h]

/-- The bytes of a framed PDU are as many as their header says (30 R47). -/
theorem framedBytes_length_eq_pduSize {P : Params} {q : Pdu} (h : q.framed P = true) :
    (framedBytes P q).length = pduSize (framedBytes P q) := by
  rw [Machine.pduSize_of_legal (by simpa using three_le_len_of_framed h), le16_framedBytes]
  exact ((framed_iff P q).1 h).symm

/-- The bytes of a framed PDU select the PDU's row: a trailer put there by the encoder passes the check (43 R125). -/
theorem decodeFrame_framedBytes {P : Params} {q : Pdu} (h : q.framed P = true) :
    decodeFrame P (framedBytes P q) = .ok (selectCommand P q) := by
  have hlen : q.len.toNat = q.size + P.trailerBytes := beq_iff_eq.1 h
  rw [decodeFrame, le16_framedBytes, if_neg (Nat.not_lt.2 (three_le_len_of_framed h))]
  cases ha : P.crcAttach with
  | none => simp [framedBytes, trailerOf, ha]
  | trailer =>
    have hgood : checkTrailer P.crc (framedBytes P q) q.len.toNat = .good q.bytes := by
      have hsize : q.len.toNat = q.bytes.length + P.crc.width.bytes := by
        simpa [Params.trailerBytes, ha] using hlen
      rw [hsize, framedBytes, trailerOf, ha]
      exact checkTrailer_append P.crc q.bytes (by simp [Pdu.size])
    simp [hgood]

/-- The three bytes of a corrupt header (40 R73). -/
theorem decodeFrame_corruptHeader {P : Params} {cmd : Byte} {len : Half} (h : len.toNat < 3) :
    decodeFrame P (pduBytes cmd len []) = .ok (.corruptHeader cmd len) := by
  rw [decodeFrame, le16_pduBytes, if_pos h, byteAt_pduBytes]

/-- Settles O1: the bytes of a PDU and of a corrupt header are one whole PDU, which decodes to the instruction. -/
theorem encodedInstructionsDecodeBack : Obligations.EncodedInstructionsDecodeBack := by
  intro P i rest hw hne
  rcases pdu_or_corruptHeader_of_encodePdu hne with ⟨q, hq⟩ | ⟨cmd, len, rfl⟩
  · obtain ⟨hrow, hframed⟩ := (wellFormed_of_pdu P hq).1 hw
    rw [encodePdu_of_pdu P hq]
    exact decodePdu_append (framedBytes_length_eq_pduSize hframed) (hrow ▸ decodeFrame_framedBytes hframed) rest
  · have hlen : len.toNat < 3 := of_decide_eq_true hw
    have hsize : (pduBytes cmd len []).length = pduSize (pduBytes cmd len []) := by
      rw [pduSize_pduBytes, pduBytes_length, List.length_nil, Nat.max_eq_left hlen.le]
    exact decodePdu_append hsize (decodeFrame_corruptHeader hlen) rest

/-! ### From bytes to the instruction and back -/

/-- The row the table selects for a framed PDU is well-formed, and encodes to the PDU's bytes. -/
theorem selectCommand_wellFormed {P : Params} {q : Pdu} (h : q.framed P = true) :
    WellFormed P (selectCommand P q) ∧ encodePdu P (selectCommand P q) = framedBytes P q :=
  ⟨(wellFormed_of_pdu P (selectCommand_pdu P q)).2 ⟨rfl, h⟩, encodePdu_of_pdu P (selectCommand_pdu P q)⟩

/-- The PDU that the decoder takes from a whole PDU `p`, its trailer checked and left out, has the bytes `p` (43 R125). -/
theorem framedBytes_of_decoded {P : Params} {p : List Byte} {q : Pdu} (hlen : p.length = (le16 p 1).toNat)
    (h3 : 3 ≤ p.length) (h : P.crcAttach = .none ∧ q = pduOfBytes p ∨
      P.crcAttach = .trailer ∧ ∃ body, checkTrailer P.crc p (le16 p 1).toNat = .good body ∧ q = pduOfBytes body) :
    framedBytes P q = p := by
  rcases h with ⟨ha, rfl⟩ | ⟨ha, body, hgood, rfl⟩
  · rw [framedBytes, bytes_pduOfBytes p h3, trailerOf, ha, List.append_nil]
  · obtain ⟨hbytes, -, hbody⟩ := append_of_checkTrailer_good hlen (hlen ▸ h3) hgood
    rw [framedBytes, bytes_pduOfBytes body hbody, trailerOf, ha]
    exact hbytes

/-- The first `pduSize` bytes of a complete stream are one whole PDU (10 R18). -/
theorem length_take_eq_pduSize {buf : List Byte} (h : complete buf = true) :
    (buf.take (pduSize buf)).length = pduSize (buf.take (pduSize buf)) := by
  obtain ⟨hlen, hlen16, -⟩ := Machine.take_pduSize h
  have hsize : pduSize (buf.take (pduSize buf)) = pduSize buf := congrArg (fun l : Half => max 3 l.toNat) hlen16
  rw [hlen, hsize]

/-- What one whole PDU decodes to is well-formed and encodes to it. -/
theorem encodePdu_of_decodeFrame {P : Params} {p : List Byte} {i : Instr} (hsize : p.length = pduSize p)
    (h : decodeFrame P p = .ok i) : WellFormed P i ∧ encodePdu P i = p := by
  have h3 : 3 ≤ p.length := hsize ▸ three_le_pduSize p
  rcases Machine.decodeFrame_cases h with ⟨hcorrupt, rfl, -⟩ | ⟨hlegal, q, rfl, -, hq⟩
  · have hnil : p.drop 3 = [] := List.drop_eq_nil_of_le (Machine.pduSize_of_corrupt hcorrupt ▸ hsize).le
    have hbytes := pduBytes_of_length p h3
    rw [hnil] at hbytes
    exact ⟨decide_eq_true hcorrupt, hbytes⟩
  · have hlen : p.length = (le16 p 1).toNat := Machine.pduSize_of_legal hlegal ▸ hsize
    have hbytes : framedBytes P q = p := framedBytes_of_decoded hlen h3 hq
    have hframed : q.framed P = true := by
      rw [framed_iff, ← le16_framedBytes P q, hbytes, hlen]
    exact hbytes ▸ selectCommand_wellFormed hframed

/-- Settles O2: the decoder takes one whole PDU off the stream, and no byte of it is lost. -/
theorem decodedInstructionsEncodeBack : Obligations.DecodedInstructionsEncodeBack := by
  intro P bytes i rest h
  obtain ⟨hc, hframe, rfl⟩ := Machine.decodePdu_eq_ok h
  obtain ⟨hw, hbytes⟩ := encodePdu_of_decodeFrame (length_take_eq_pduSize hc) hframe
  exact ⟨hw, hbytes ▸ List.take_append_drop ..⟩

/-- Settles O4: the decoder evaluates on the five words, whose command bytes the source fixes (00 R7). -/
theorem sampleWordsDecode : Obligations.SampleWordsDecode := ⟨rfl, rfl, rfl, rfl, rfl⟩

end Sys2Proof
end

section
/-! PROOFS. The family of spec 40, its rows: PUSH, CHUNK, EMIT, POP, the resets and the register accesses, one equation per case
(40 R68 to R78, 70 R145). -/

namespace Sys2Proof.Machine

open Sys2Proof.Safety

/-! ### The buffer's operations -/

/-- A buffer that holds at most one PDU is within BUF_CAP (40 R72). -/
theorem bufferFits_length_le {buf : List Byte} (h : BufferFits buf) : buf.length ≤ 65535 := by
  by_cases h3 : 3 ≤ buf.length
  · exact (h h3).trans (pduSize_le_cap buf)
  · omega

/-- A write to IN_DATA is the PUSH of its bits 7:0 (40 R78). -/
theorem exec_wr_inData (v : Word) (s : State) : exec (.wr 0x10 v) s = exec (.push (v.setWidth 8)) s := rfl

/-- Settles O44: the byte is appended by `pushByte`, and completes at most the one PDU the buffer may hold. -/
theorem pushAppendsOneByte : Obligations.PushAppendsOneByte := by
  refine fun b s => ⟨pushByte_of_ready b, pushByte_of_complete b, ?_, fun _ hc => ?_⟩
  · rintro v rfl
    exact exec_wr_inData v s
  · exact bufferFits_length_le (bufferFits_push b hc)

/-- A chunk's first byte is pushed, and the others are the host's next operation (log entry 8). -/
theorem exec_chunk_of_ready {s : State} (b : Byte) (rest : List Byte) (h : complete s.buf = false) :
    exec (.chunk (b :: rest)) s =
      .next { s with buf := s.buf ++ [b], hostOps := if rest = [] then s.hostOps else .chunk rest :: s.hostOps } := by
  have hchunk : exec (.chunk (b :: rest)) s =
      pushByte b (if rest.isEmpty then s else s.withHostOps (.chunk rest :: s.hostOps)) :=
    if_neg (by simp [h])
  rw [hchunk]
  cases rest with
  | nil => exact pushByte_of_ready b h
  | cons c rest => exact pushByte_of_ready b h

theorem exec_chunk_of_complete {s : State} (b : Byte) (rest : List Byte) (h : complete s.buf = true) :
    exec (.chunk (b :: rest)) s = .next s := if_pos h

/-- Settles O45: the two cases of a chunk with a byte to push. -/
theorem chunkPushesItsFirstByte : Obligations.ChunkPushesItsFirstByte :=
  fun _ => ⟨rfl, fun b rest => ⟨exec_chunk_of_ready b rest, exec_chunk_of_complete b rest⟩⟩

/-! ### EMIT -/

/-- An enabled EMIT takes one PDU off the buffer and queues its record (40 R71). -/
theorem exec_emit_of_room {s : State} (hc : complete s.buf = true) (hroom : s.outq.length < Config.params.outDepth) :
    exec .emit s = .next { s with
      buf := s.buf.drop (pduSize s.buf)
      outq := s.outq ++ [pduRecord Config.params (s.buf.take (pduSize s.buf))] } := by
  rw [exec_emit_of_complete hc, emitRecord_of_room _ _ hroom]

/-- An EMIT that is not enabled waits (40 R71). -/
theorem exec_emit_of_disabled {s : State} (h : ¬ (complete s.buf = true ∧ s.outq.length < Config.params.outDepth)) :
    exec .emit s = .next s := by
  cases hc : complete s.buf with
  | false => exact exec_emit_of_incomplete hc
  | true => rw [exec_emit_of_complete hc, emitRecord_of_full _ _ fun hroom => h ⟨hc, hroom⟩]

/-- The record of a buffered PDU, told by the buffer's own header (40 R71, R73). -/
theorem pduRecord_take {buf : List Byte} (P : Params) (h : complete buf = true) :
    pduRecord P (buf.take (pduSize buf)) =
      if (le16 buf 1).toNat < 3 then corruptRecord (byteAt buf 0) (le16 buf 1)
      else decodeRecord P (buf.take (pduSize buf)) := by
  obtain ⟨-, hlen, hcmd⟩ := take_pduSize h
  rw [pduRecord, hlen, hcmd]

/-- Settles O47: EMIT enabled and not, with the record of the PDU at the buffer's head. -/
theorem emitExtractsOnePdu : Obligations.EmitExtractsOnePdu := by
  refine fun s => ⟨fun hc hroom => ?_, exec_emit_of_disabled⟩
  rw [exec_emit_of_room hc hroom, pduRecord_take _ hc]
  rfl

/-- Settles O20: each of these rows ends in `emitRecord`, which waits without room. -/
theorem fullQueueHoldsEmit : Obligations.FullQueueHoldsEmit := by
  intro i s hi hfull
  have hroom : ¬ s.outq.length < Config.params.outDepth := Nat.not_lt.2 hfull
  rcases hi with hpdu | ⟨cmd, len, rfl⟩ | rfl
  · obtain ⟨q, hq⟩ := Option.isSome_iff_exists.1 hpdu
    obtain ⟨r, hr⟩ := exec_of_pdu hq
    rw [hr, emitRecord_of_full _ _ hroom]
  · rw [exec_corruptHeader, emitRecord_of_full _ _ hroom]
  · exact exec_emit_of_disabled fun h => hroom h.2

/-- Settles O15: what an EMIT takes of a buffer with one PDU is the whole buffer. -/
theorem onePduFillsTheBuffer : Obligations.OnePduFillsTheBuffer := by
  refine fun s t hfit => ⟨bufferFits_length_le hfit, fun hc hroom h => ?_⟩
  rw [exec_emit_of_room hc hroom] at h
  cases h
  exact drop_pduSize_of_fits hfit hc

/-- Settles O34: the three header bytes are one whole PDU, and the row queues the corrupt record. -/
theorem corruptHeaderConsumesThreeBytes : Obligations.CorruptHeaderConsumesThreeBytes := by
  refine fun cmd len hlen => ⟨fun P rest => ?_, emitsRecord_of_exec (exec_corruptHeader cmd len)⟩
  exact encodedInstructionsDecodeBack P (.corruptHeader cmd len) rest (decide_eq_true hlen) (List.cons_ne_nil _ _)

/-! ### POP, the resets and the register accesses -/

/-- Settles O48: POP with a record queued and with none. -/
theorem popTakesTheHead : Obligations.PopTakesTheHead := by
  intro s
  have hpop : exec .pop s = popRecord s := rfl
  refine ⟨fun r rest h => ?_, fun h => ?_⟩
  · rw [hpop, popRecord, h]
    rfl
  · rw [hpop, popRecord, h]

theorem exec_wr_ctrl (v : Word) (s : State) : exec (.wr 0x00 v) s = .next (writeCtrl v s) := rfl

theorem writeCtrl_of_softReset {v : Word} (s : State) (h : v.getLsbD 1 = true) : writeCtrl v s = clearEngine s := if_pos h

theorem writeCtrl_of_streamReset {v : Word} (s : State) (hsoft : v.getLsbD 1 = false) (h : v.getLsbD 0 = true) :
    writeCtrl v s = clearStream s := by
  rw [writeCtrl, if_neg (ne_true_of_eq_false hsoft), if_pos h]

theorem writeCtrl_of_neither {v : Word} (s : State) (hsoft : v.getLsbD 1 = false) (h : v.getLsbD 0 = false) :
    writeCtrl v s = s := by
  rw [writeCtrl, if_neg (ne_true_of_eq_false hsoft), if_neg (ne_true_of_eq_false h)]

/-- Settles O49: both resets, and the writes to CTRL that stand for them. -/
theorem resetsEmptyTheEngine : Obligations.ResetsEmptyTheEngine := by
  refine fun s => ⟨rfl, rfl, fun v => ⟨fun hsoft h => ?_, fun h => ?_⟩⟩
  · rw [exec_wr_ctrl, writeCtrl_of_streamReset s hsoft h]
    rfl
  · rw [exec_wr_ctrl, writeCtrl_of_softReset s h]
    rfl

theorem alignedOffset_iff (off : Byte) : alignedOffset off = true ↔ off.toNat % 4 = 0 := beq_iff_eq

/-- Settles O50: the two forms of an offset. -/
theorem readReturnsTheRegister : Obligations.ReadReturnsTheRegister :=
  fun off _ => ⟨fun h => if_pos ((alignedOffset_iff off).2 h), fun h => if_neg (mt (alignedOffset_iff off).1 h)⟩

/-- Settles O51: the cases of a write to CTRL, a write to IN_DATA, and the other offsets. -/
theorem writeActsOnCtrlAndInData : Obligations.WriteActsOnCtrlAndInData := by
  refine fun v s => ⟨fun h => ?_, fun hsoft h => ?_, fun hsoft h => ?_, exec_wr_inData v s, fun off hctrl hdata =>
    ⟨fun ha => exec_wr_ignored v s ha hctrl hdata, fun ha => if_neg (mt (alignedOffset_iff off).1 ha)⟩⟩
  · rw [exec_wr_ctrl, writeCtrl_of_softReset s h]
    rfl
  · rw [exec_wr_ctrl, writeCtrl_of_streamReset s hsoft h]
    rfl
  · rw [exec_wr_ctrl, writeCtrl_of_neither s hsoft h]

/-- An access that is 32 bits wide and aligned passes the check (10 R25). -/
theorem checkAccess_of_aligned {off : Byte} (i : Instr) (h : alignedOffset off = true) : checkAccess off 32 i = .ok i :=
  if_pos h

/-- Settles O3: the two register accesses pass the check of their offset, and the other transactions have none. -/
theorem hostTransactionsDecodeBack : Obligations.HostTransactionsDecodeBack := by
  intro P i t hw ht
  cases i with
  | rd off | wr off v =>
    cases ht
    exact checkAccess_of_aligned _ hw
  | push | chunk | pop | streamReset | reset =>
    cases ht
    rfl
  | _ => cases ht

end Sys2Proof.Machine
end

section
/-! PROOFS. The family of spec 40, its steps: who moves at a step, and what the mover does (40 R71, R79, R80; 70 R150, R151;
log entries 3, 4, 7). -/

namespace Sys2Proof.Machine

open Sys2Proof.Safety

/-- Settles O11: the row and EMIT take the same bytes and queue the same record. -/
theorem bufferedRowIsEmit : Obligations.BufferedRowIsEmit := fun _ _ _ h => exec_of_decodePdu h

/-- Settles O5: a buffer that decodes is complete, so with room EMIT is enabled and the engine's turn runs the row. -/
theorem stepRunsTheBufferedInstruction : Obligations.StepRunsTheBufferedInstruction := by
  intro s i rest hd hroom
  have he : emitEnabled Config.params s = true := (emitEnabled_iff _ s).2 ⟨(decodePdu_eq_ok hd).1, hroom⟩
  refine ⟨fun hnil => ?_, fun ts hts => ?_⟩
  · rw [step_of_enabled hnil he, engineTurn_of_decoded he hd]
  · rw [step_of_engine hts]
    exact engineTurn_of_decoded he hd

/-- Settles O6: a host turn, a step without given turns, and a port turn, each by the equation of its move. -/
theorem stepPerformsHostOperations : Obligations.StepPerformsHostOperations := by
  intro s t i hd
  have henabled : ∀ ts, enabled Config.params (s.withTurns ts) i = enabled Config.params s i :=
    fun _ => enabled_congr _ i rfl rfl
  refine ⟨fun ops hops hnil he => ?_, fun ops ts hops hts => ?_, fun ts hts => ?_⟩
  · rw [step_of_disabled hnil he]
    exact hostTurn_of_cons hops hd
  · rw [step_of_host hts, hostTurn_of_cons (s := s.withTurns ts) hops hd, henabled]
    rfl
  · rw [step_of_port hts, portTurn_of_ok hd, henabled]
    rfl

/-- Settles O7: the mover of each of the three steps has nothing to do. -/
theorem idleTurnsChangeNothing : Obligations.IdleTurnsChangeNothing := by
  refine fun s => ⟨fun ts hts he => ?_, fun ts hts hops => ?_, fun hnil hops he => ?_⟩
  · rw [step_of_engine hts]
    exact engineTurn_of_disabled he
  · rw [step_of_host hts]
    exact hostTurn_of_nil hops
  · rw [step_of_disabled hnil he, hostTurn_of_nil hops]

/-- The engine's turn is EMIT, enabled or not: the machine has no trailer, so every complete PDU has a row (40 R71). -/
theorem engineTurn_eq_emit (s : State) : engineTurn s = exec .emit s := by
  cases he : emitEnabled Config.params s with
  | true =>
    obtain ⟨i, rest, hd⟩ := decodePdu_of_complete ((emitEnabled_iff _ s).1 he).1
    rw [engineTurn_of_decoded he hd, exec_of_decodePdu hd]
  | false =>
    rw [engineTurn_of_disabled he, exec_emit_of_disabled]
    rwa [← emitEnabled_iff, Bool.not_eq_true]

/-- A run of as many steps as turns are given uses them up. -/
theorem turns_eq_nil_of_run {s t : State} {n : Nat} (hn : s.turns.length = n) (h : runSteps n s = .next t) :
    t.turns = [] := by
  induction n generalizing s with
  | zero =>
    cases h
    exact List.length_eq_zero_iff.1 hn
  | succ n ih =>
    obtain ⟨u, hstep, hrun⟩ := runSteps_succ_next h
    obtain ⟨x, ts, hts⟩ := List.exists_cons_of_length_eq_add_one hn
    refine ih ?_ hrun
    rw [step_turns hts hstep]
    simpa [hts] using hn

/-- Settles O8: once the given turns are used up, an enabled EMIT goes first. -/
theorem enabledEmitFires : Obligations.EnabledEmitFires := by
  intro s t hrun he
  rw [step_of_enabled (turns_eq_nil_of_run rfl hrun) he, engineTurn_eq_emit]

/-- With no turns given and no PDU complete, the step pushes the first byte of the chunk that is due. -/
theorem step_of_chunk {s : State} {b : Byte} {rest : List Byte} {ops : List Transaction} (hnil : s.turns = [])
    (hops : s.hostOps = .chunk (b :: rest) :: ops) (hc : complete s.buf = false) :
    step s = .next { s with buf := s.buf ++ [b], hostOps := if rest = [] then ops else .chunk rest :: ops } := by
  have he : emitEnabled Config.params s = false := by simp [emitEnabled, hc]
  have henabled : enabled Config.params s (.chunk (b :: rest)) = true := by simp [enabled, inReady, hc]
  rw [step_of_disabled hnil he, hostTurn_of_cons hops rfl, if_pos henabled]
  exact exec_chunk_of_ready (s := s.withHostOps ops) b rest hc

/-- Settles O46: by induction on the chunk, whose first byte is pushed and whose others are the next operation. -/
theorem chunkPushesAllItsBytes : Obligations.ChunkPushesAllItsBytes := by
  intro s bs
  induction bs generalizing s with
  | nil => exact fun _ _ _ hne => absurd rfl hne
  | cons b rest ih =>
    intro ops hnil hops _ hinc
    have hstep := step_of_chunk hnil hops (by simpa using hinc 0 (Nat.succ_pos _))
    rw [List.length_cons, runSteps_of_next _ hstep]
    by_cases hrest : rest = []
    · subst hrest
      rfl
    · have hrun := ih { s with buf := s.buf ++ [b], hostOps := .chunk rest :: ops } ops hnil rfl hrest fun k hk => by
        simpa using hinc (k + 1) (Nat.succ_lt_succ hk)
      rw [if_neg hrest, hrun]
      simp

end Sys2Proof.Machine
end

section
/-! PROOFS. The family of spec 40, the stream as a whole (40 R67, R74): what the host still pushes, what is
buffered, queued and popped give one sequence of records, which no step of a streaming host changes. -/

namespace Sys2Proof.Machine

open Sys2Proof.Safety

/-- `t` is what an operation that stands for the stream bytes `bs` makes of `s`: the records stay, in order, the bytes come
behind the buffer and before the pending operations', and an operation that joins these discards nothing. -/
def Streams (bs : List Byte) (s t : State) : Prop :=
  t.popped ++ t.outq = s.popped ++ s.outq ∧
    pendingStream t = s.buf ++ (bs ++ s.hostOps.flatMap pushedBytes) ∧
    ∀ op ∈ t.hostOps, op ∈ s.hostOps ∨ keepsStream op = true

theorem streams_refl (s : State) : Streams [] s s := ⟨rfl, rfl, fun _ h => .inl h⟩

/-! ### The operations of a streaming host -/

theorem complete_of_inReady {s : State} (h : inReady s = true) : complete s.buf = false := by
  simpa [inReady] using h

/-- An enabled PUSH, or write to IN_DATA, streams its byte (40 R68). -/
theorem streams_pushByte {b : Byte} {s t : State} (hc : complete s.buf = false) (h : pushByte b s = .next t) :
    Streams [b] s t := by
  rw [pushByte_of_ready b hc] at h
  cases h
  exact ⟨rfl, by simp [pendingStream], fun _ h => .inl h⟩

/-- An enabled chunk streams all its bytes: one stands in the buffer, the others with the next operation (40 R69). -/
theorem streams_chunk {bs : List Byte} {s t : State} (he : enabled Config.params s (.chunk bs) = true)
    (h : exec (.chunk bs) s = .next t) : Streams bs s t := by
  cases bs with
  | nil =>
    cases h
    exact streams_refl _
  | cons b rest =>
    rw [exec_chunk_of_ready b rest (complete_of_inReady he)] at h
    cases h
    by_cases hrest : rest = []
    · subst hrest
      exact ⟨rfl, by simp [pendingStream], fun _ h => .inl h⟩
    · refine ⟨rfl, by simp [pendingStream, pushedBytes, hrest], fun op hop => ?_⟩
      rw [if_neg hrest] at hop
      rcases List.mem_cons.1 hop with rfl | hop
      · exact .inr rfl
      · exact .inl hop

/-- A POP hands a queued record on and streams nothing (40 R75). -/
theorem streams_pop {s t : State} (h : exec .pop s = .next t) : Streams [] s t := by
  refine ⟨exec_pop_conserves h, ?_⟩
  rcases popRecord_next h with ⟨-, rfl⟩ | ⟨r, rest, -, rfl⟩
  · exact (streams_refl _).2
  · exact ⟨rfl, fun _ h => .inl h⟩

/-- A read streams nothing (40 R77). -/
theorem streams_rd {off : Byte} {s t : State} (h : exec (.rd off) s = .next t) : Streams [] s t := by
  simp only [exec, execRd] at h
  split_ifs at h
  cases h
  exact ⟨rfl, rfl, fun _ h => .inl h⟩

/-- An enabled write that is not one to CTRL is a PUSH or nothing (40 R78). -/
theorem streams_wr {off : Byte} {v : Word} {s t : State} (bits : Nat) (hctrl : off ≠ 0x00)
    (he : enabled Config.params s (.wr off v) = true) (h : exec (.wr off v) s = .next t) :
    Streams (pushedBytes (.write off bits v)) s t := by
  by_cases hdata : off = 0x10
  · subst hdata
    exact streams_pushByte (complete_of_inReady he) h
  · simp only [exec, execWr, if_neg hctrl, if_neg hdata] at h
    split_ifs at h
    cases h
    rw [pushedBytes, if_neg hdata]
    exact streams_refl _

/-- Every enabled operation that keeps the stream streams the bytes it stands for. -/
theorem streams_transaction {op : Transaction} {i : Instr} {s t : State} (hd : decodeTransaction op = .ok i)
    (hk : keepsStream op = true) (he : enabled Config.params s i = true) (h : exec i s = .next t) :
    Streams (pushedBytes op) s t := by
  cases op with
  | push b =>
    cases hd
    exact streams_pushByte (complete_of_inReady he) h
  | chunk bs =>
    cases hd
    exact streams_chunk he h
  | pop =>
    cases hd
    exact streams_pop h
  | sreset | reset => cases hk
  | read off bits =>
    obtain ⟨-, -, rfl⟩ := checkAccess_eq_ok hd
    exact streams_rd h
  | write off bits v =>
    obtain ⟨-, -, rfl⟩ := checkAccess_eq_ok hd
    exact streams_wr bits (bne_iff_ne.1 hk) he h

/-! ### The moves -/

/-- The stream's total is made of the records the engine has given and the bytes still pending. -/
theorem streamTotal_congr {s t : State} (hrecs : t.popped ++ t.outq = s.popped ++ s.outq)
    (hbytes : pendingStream t = pendingStream s) : streamTotal t = streamTotal s := by
  simp only [streamTotal, hrecs, hbytes]

/-- An EMIT turns the bytes of the stream's first PDU into their record (40 R67). -/
theorem emit_streamTotal {s t : State} (h : exec .emit s = .next t) :
    t.hostOps = s.hostOps ∧ streamTotal t = streamTotal s := by
  rcases exec_emit_next h with rfl | ⟨hc, -, rfl⟩
  · exact ⟨rfl, rfl⟩
  · obtain ⟨h3, hle⟩ := (complete_iff s.buf).1 hc
    have hdecode := streamDecode_of_complete (P := Config.params)
      (complete_append s.buf (s.hostOps.flatMap pushedBytes) hc)
    rw [pduSize_append _ _ h3, List.take_append_of_le_length hle, List.drop_append_of_le_length hle] at hdecode
    exact ⟨rfl, by simp [streamTotal, pendingStream, hdecode]⟩

/-- What each move of a streaming host and its engine keeps. -/
def Conserves (s t : State) : Prop := StreamOnly t ∧ streamTotal t = streamTotal s

theorem engineTurn_conserves {s t : State} (hs : StreamOnly s) (h : engineTurn s = .next t) : Conserves s t := by
  rw [engineTurn_eq_emit] at h
  obtain ⟨hops, htotal⟩ := emit_streamTotal h
  refine ⟨?_, htotal⟩
  rwa [StreamOnly, hops, exec_turns h]

/-- An operation performed while `ops` are pending keeps the stream, if its bytes and those of `ops` are the pending ones. -/
theorem transaction_conserves {op : Transaction} {i : Instr} {ops : List Transaction} {s t : State} (hs : StreamOnly s)
    (hd : decodeTransaction op = .ok i) (hk : keepsStream op = true) (he : enabled Config.params s i = true)
    (h : exec i (s.withHostOps ops) = .next t)
    (hbytes : pushedBytes op ++ ops.flatMap pushedBytes = s.hostOps.flatMap pushedBytes) (hops : ops ⊆ s.hostOps) :
    Conserves s t := by
  have he' : enabled Config.params (s.withHostOps ops) i = true := (enabled_congr _ i rfl rfl).trans he
  obtain ⟨hrecs, hpending, hjoin⟩ := streams_transaction hd hk he' h
  refine ⟨⟨fun x hx => ?_, ?_⟩, streamTotal_congr hrecs (hpending.trans (congrArg (s.buf ++ ·) hbytes))⟩
  · exact (hjoin x hx).elim (fun hmem => hs.1 x (hops hmem)) id
  · rw [exec_turns h]
    exact hs.2

/-- The host's first pending operation streams the bytes that stand next after the buffer. -/
theorem hostTurn_conserves {s t : State} (hs : StreamOnly s) (h : hostTurn s = .next t) : Conserves s t := by
  unfold hostTurn at h
  split at h
  · cases h
    exact ⟨hs, rfl⟩
  · rename_i op rest hops
    split at h
    · rename_i i hd
      split at h
      · rename_i he
        refine transaction_conserves hs hd (hs.1 op ?_) he h ?_ ?_
        · simp [hops]
        · simp [hops]
        · simp [hops]
      · cases h
        exact ⟨hs, rfl⟩
    · cases h

/-- An operation of a plain port turn pushes nothing; performed or waiting, it leaves the stream as it is. -/
theorem portTurn_conserves {op : Transaction} {s t : State} (hs : StreamOnly s) (hplain : plainTurn (.port op) = true)
    (h : portTurn op s = .next t) : Conserves s t := by
  obtain ⟨hk, hnone⟩ : keepsStream op = true ∧ pushedBytes op = [] := by simpa [plainTurn] using hplain
  unfold portTurn at h
  split at h
  · rename_i i hd
    split at h
    · rename_i he
      refine transaction_conserves (ops := s.hostOps) hs hd hk he h ?_ (List.Subset.refl _)
      rw [hnone, List.nil_append]
    · cases h
      refine ⟨⟨?_, hs.2⟩, streamTotal_congr rfl ?_⟩
      · exact List.forall_mem_append.2 ⟨hs.1, by simpa using hk⟩
      · simp [pendingStream, hnone]
  · cases h

/-- Taking a turn off the coming ones changes nothing of the stream. -/
theorem streamOnly_withTurns {s : State} {x : Turn} {ts : List Turn} (hs : StreamOnly s) (h : s.turns = x :: ts) :
    StreamOnly (s.withTurns ts) ∧ plainTurn x = true := by
  obtain ⟨hkeep, hplain⟩ := hs
  obtain ⟨hx, hts⟩ := List.forall_mem_cons.1 (h ▸ hplain)
  exact ⟨⟨hkeep, hts⟩, hx⟩

/-- Settles O16: whoever moves, the records given and the bytes pending together stay the same stream. -/
theorem streamingConservesRecords : Obligations.StreamingConservesRecords := by
  intro s t hs h
  match hts : s.turns with
  | .engine :: ts =>
    rw [step_of_engine hts] at h
    exact engineTurn_conserves (s := s.withTurns ts) (streamOnly_withTurns hs hts).1 h
  | .host :: ts =>
    rw [step_of_host hts] at h
    exact hostTurn_conserves (s := s.withTurns ts) (streamOnly_withTurns hs hts).1 h
  | .port op :: ts =>
    obtain ⟨hs', hplain⟩ := streamOnly_withTurns hs hts
    rw [step_of_port hts] at h
    exact portTurn_conserves (s := s.withTurns ts) hs' hplain h
  | [] =>
    cases he : emitEnabled Config.params s with
    | true =>
      rw [step_of_enabled hts he] at h
      exact engineTurn_conserves hs h
    | false =>
      rw [step_of_disabled hts he] at h
      exact hostTurn_conserves hs h

/-! ### Runs -/

/-- So a whole run keeps the stream's total (20 R43). -/
theorem run_streamTotal {n : Nat} {s t : State} (hs : StreamOnly s) (h : runSteps n s = .next t) :
    streamTotal t = streamTotal s := by
  induction n generalizing s with
  | zero =>
    cases h
    rfl
  | succ n ih =>
    obtain ⟨u, hstep, hrun⟩ := runSteps_succ_next h
    obtain ⟨hu, htotal⟩ := streamingConservesRecords s u hs hstep
    exact (ih hu hrun).trans htotal

/-- At the end of a run with no PDU complete, the total is what the host has, what is queued, and the bytes left (70 R157). -/
theorem streamTotal_of_final {s : State} (hf : Final s) (hc : complete s.buf = false) :
    streamTotal s = (s.popped ++ s.outq, s.buf) := by
  have hpending : pendingStream s = s.buf := by rw [pendingStream, hf.1, List.append_nil]
  simp [streamTotal, hpending, streamDecode_of_incomplete hc]

/-- Settles O17: both runs end with the total that their common stream has from the start. -/
theorem splitInvariance : Obligations.SplitInvariance := by
  intro s s' t t' m n hs hs' hbytes hrecs hrun hrun' hf hf' hc hc'
  have htotal : (t.popped ++ t.outq, t.buf) = (t'.popped ++ t'.outq, t'.buf) :=
    calc (t.popped ++ t.outq, t.buf)
      _ = streamTotal t := (streamTotal_of_final hf hc).symm
      _ = streamTotal s := run_streamTotal hs hrun
      _ = streamTotal s' := streamTotal_congr hrecs hbytes
      _ = streamTotal t' := (run_streamTotal hs' hrun').symm
      _ = (t'.popped ++ t'.outq, t'.buf) := streamTotal_of_final hf' hc'
  obtain ⟨hout, hbuf⟩ := Prod.mk.inj htotal
  exact ⟨by simp only [observation, bufLevelReg, hout, hbuf], hbuf⟩

end Sys2Proof.Machine
end

section
/-! PROOFS. The family of spec 41: which byte selects each row of the dispatch table (30 R64, 41 R81), and the record each row
queues, case by case (41 R82 to R104). -/

namespace Sys2Proof.Machine

open Sys2Proof.Safety

/-! ### What every row shares -/

/-- A command's byte selects its row (41 R81). -/
theorem rowOf_commandInstr (c : CommandId) : RowOf c (commandInstr c) := fun P q h => by
  rw [selectCommand, h, lookup_code]

/-- A byte outside the image of CMD_CODE selects UNKNOWN (41 R84). -/
theorem selectCommand_of_no_code {P : Params} {q : Pdu} (h : ∀ c, P.codes.code c ≠ q.cmd) :
    selectCommand P q = .unknown q := by
  rw [selectCommand, (lookup_eq_none_iff P q.cmd).2 h]

/-- A command's row queues the record of its rule, from every state with room (41 R85). -/
theorem emitsRecord_commandInstr (c : CommandId) (q : Pdu) :
    EmitsRecord (commandInstr c q) q.len.toNat (commandRecord Config.params c q) :=
  emitsRecord_of_exec (exec_commandInstr c q)

/-- `c`'s record for `q` is that of the answer `d` of its rule, under the machine's parameters. -/
def DecodesBy (c : CommandId) (q : Pdu) (d : Decoded) : Prop :=
  commandRecord Config.params c q = decodedRecord c q d

/-- A rule that returns queues an OK record (41 R83). -/
theorem DecodesBy.emitsOk {c : CommandId} {q : Pdu} {d : Decoded} {w : Warn} {f : Fields} {n : Option (List Byte)}
    (h : DecodesBy c q d) (hd : d = .done w f n) : EmitsRecord (commandInstr c q) q.len.toNat (okRec c q w f n) := by
  have hemit := emitsRecord_commandInstr c q
  rwa [h, hd] at hemit

/-- A rule that raises Truncated queues the raw payload (60 R132). -/
theorem DecodesBy.emitsTruncated {c : CommandId} {q : Pdu} {d : Decoded} {w : Warn} (h : DecodesBy c q d)
    (hd : d = .raised w) : EmitsRecord (commandInstr c q) q.len.toNat (truncRec q w) := by
  have hemit := emitsRecord_commandInstr c q
  rwa [h, hd] at hemit

/-- A byte past the end of the PDU cannot be read (00 R10). -/
theorem memByte_of_ge {q : Pdu} {off : Nat} (h : q.size ≤ off) : memByte q off = none := by
  rw [memByte, memRead_of_gt (by omega), Option.map_none]

/-! ### Empty records: PING and the rows with no structured decode, and UNKNOWN -/

/-- Settles O23: each of the six rows is its command's, and its rule reads nothing of the payload. -/
theorem noDecodeRowsGiveEmptyRecords : Obligations.NoDecodeRowsGiveEmptyRecords :=
  ⟨⟨rowOf_commandInstr .sync, rowOf_commandInstr .devicePacket, rowOf_commandInstr .rawmode, rowOf_commandInstr .register,
      rowOf_commandInstr .unregister, rowOf_commandInstr .queryAddress⟩,
    fun q => ⟨emitsRecord_commandInstr .sync q, emitsRecord_commandInstr .devicePacket q,
      emitsRecord_commandInstr .rawmode q, emitsRecord_commandInstr .register q, emitsRecord_commandInstr .unregister q,
      emitsRecord_commandInstr .queryAddress q⟩⟩

/-- Settles O24: PING's rule reads nothing of the payload, and 0x02 is its byte under every map. -/
theorem pingGivesAnEmptyRecord : Obligations.PingGivesAnEmptyRecord :=
  ⟨emitsRecord_commandInstr .ping, fun P _ _ => rowOf_commandInstr .ping P _ P.codes.ping.symm⟩

/-- Settles O33: the row's record is UNKNOWN's, and 0x99 is outside the image of every map. -/
theorem unknownRowCarriesThePayload : Obligations.UnknownRowCarriesThePayload := by
  refine fun q => ⟨emitsRecord_of_exec fun _ => rfl, fun P => selectCommand_of_no_code, fun P h99 => ?_⟩
  exact selectCommand_of_no_code fun c => h99 ▸ P.codes.not99 c

/-! ### The rows with one value byte -/

theorem oneByteResponse_of_nil {q : Pdu} (warn : Byte → Warn) (field : Byte → Fields) (h : q.payload = []) :
    oneByteResponse q warn field = .done noWarn .empty none :=
  if_pos ((isRequest_iff q).2 h)

theorem oneByteResponse_of_cons {q : Pdu} {b : Byte} {rest : List Byte} (warn : Byte → Warn) (field : Byte → Fields)
    (h : q.payload = b :: rest) : oneByteResponse q warn field = .done (warn b) (field b) none := by
  have hread : memByte q 3 = some b := memByte_payload (a := []) h
  simp [oneByteResponse, isRequest_of_ne (h ▸ List.cons_ne_nil b rest), hread]

/-- A row whose rule is the one-byte response has the two forms of `OneByteRow`. -/
theorem oneByteRow_of_decodesBy {c : CommandId} {warn : Byte → Warn} {field : Byte → Fields}
    (h : ∀ q, DecodesBy c q (oneByteResponse q warn field)) : OneByteRow (commandInstr c) c warn field :=
  ⟨rowOf_commandInstr c, fun q => ⟨fun hnil => (h q).emitsOk (oneByteResponse_of_nil warn field hnil),
    fun _ _ hcons => (h q).emitsOk (oneByteResponse_of_cons warn field hcons)⟩⟩

/-- Settles O25: the three rules are the one-byte response without a warning. -/
theorem valueRowsSurfaceTheirByte : Obligations.ValueRowsSurfaceTheirByte :=
  ⟨oneByteRow_of_decodesBy (c := .apiRevision) fun _ => rfl, oneByteRow_of_decodesBy (c := .packetfilter) fun _ => rfl,
    oneByteRow_of_decodesBy (c := .restartBus) fun _ => rfl⟩

/-- Settles O26: the rule is the one-byte response with the BusState warning, and 0x23 is its byte under every map. -/
theorem queryBusstateSurfacesTheState : Obligations.QueryBusstateSurfacesTheState := by
  refine ⟨oneByteRow_of_decodesBy (c := .queryBusstate) fun q => ?_,
    fun P _ _ => rowOf_commandInstr .queryBusstate P _ P.codes.queryBusstate.symm⟩
  rw [← funext busStateWarn_eq]
  rfl

/-! ### The rows with dSIDs -/

/-- Settles O27: the payload is empty, cut inside the identifier, or starts with a whole one. -/
theorem queryDsuidSurfacesTheDsid : Obligations.QueryDsuidSurfacesTheDsid := by
  refine ⟨rowOf_commandInstr .queryDsuid, fun q => ?_⟩
  have hrule : DecodesBy .queryDsuid q _ := rfl
  refine ⟨fun hnil => ?_, fun hpos hcut => ?_, fun id rest hid hq => ?_⟩
  · exact hrule.emitsOk (if_pos ((isRequest_iff q).2 hnil))
  · have hread : memRead q 3 12 = none := memRead_of_gt (by rw [Pdu.size_eq]; omega)
    exact hrule.emitsTruncated (by simp [isRequest_of_ne (List.ne_nil_of_length_pos hpos), hread, noWarn])
  · have hne : q.payload ≠ [] := List.ne_nil_of_length_pos (by rw [hq, List.length_append]; omega)
    have hread : memRead q 3 12 = some id := hid ▸ memRead_payload (a := []) hq
    exact hrule.emitsOk (by simp [isRequest_of_ne hne, hread, noWarn])

/-- The entries of a QUERY_DEVICES payload are its whole ones, and the loop ends behind the last (41 R99). -/
theorem dsidEntries_of_payload {q : Pdu} {ids : List (List Byte)} {tail : List Byte} (hids : ∀ id ∈ ids, id.length = 12)
    (htail : tail.length < 12) (hq : q.payload = ids.flatten ++ tail) :
    dsidEntries q = some (ids, 3 + 12 * ids.length) ∧ q.size = 3 + 12 * ids.length + tail.length := by
  have hflat : ids.flatten.length = 12 * ids.length := by
    rw [List.length_flatten, List.map_congr_left hids, List.map_const', List.sum_replicate, smul_eq_mul, Nat.mul_comm]
  have hsize : q.size = 3 + 12 * ids.length + tail.length := by
    rw [Pdu.size_eq, hq, List.length_append, hflat, Nat.add_assoc]
  exact ⟨dsidLoop_entries q ids q.size [] tail [] hids htail hq (by omega), hsize⟩

/-- Settles O28: the loop reads the whole entries, and bytes are left behind it just when `tail` is not empty. -/
theorem queryDevicesSurfacesWholeEntries : Obligations.QueryDevicesSurfacesWholeEntries := by
  refine ⟨rowOf_commandInstr .queryDevices, fun q => ?_⟩
  have hrule : DecodesBy .queryDevices q _ := rfl
  refine ⟨fun hnil => hrule.emitsOk (if_pos ((isRequest_iff q).2 hnil)), fun ids tail hids htail hne hq => ?_⟩
  obtain ⟨hentries, hsize⟩ := dsidEntries_of_payload hids htail hq
  have hwarn : (if 3 + 12 * ids.length < q.size then partialEntry else noWarn) = if tail = [] then 0 else partialEntry := by
    cases tail <;> simp [hsize, noWarn]
  exact hrule.emitsOk (by simp [isRequest_of_ne hne, hentries, hwarn])

/-! ### The rows that carry a Container with its data -/

section
variable {q : Pdu} {dst src : List Byte} {ctype cflags : Word} {length tid : Byte} {tail : List Byte}

/-- The data behind the Container header is there or cut (42 R106). -/
theorem containerData_after_head (hids : IdsFit dst src)
    (hq : q.payload = containerHeadBytes dst src ctype cflags length tid ++ tail) (hle : length.toNat ≤ 127) :
    containerData q ⟨dst, src, ctype, cflags, length, tid⟩ =
      if length.toNat ≤ tail.length then some (tail.take length.toNat) else none := by
  have hread := memRead_after length.toNat hq
  rw [containerHeadBytes_length hids] at hread
  exact (containerData_of_le hle).trans hread

/-- The byte of the Container's data behind the bytes `a` (42 R107). -/
theorem memByte_after_containerHead {a rest : List Byte} {b : Byte} (hids : IdsFit dst src)
    (hq : q.payload = containerHeadBytes dst src ctype cflags length tid ++ (a ++ b :: rest)) :
    memByte q (47 + a.length) = some b := by
  have hread := memByte_payload (hq.trans (List.append_assoc _ _ _).symm)
  rwa [List.length_append, containerHeadBytes_length hids, ← Nat.add_assoc] at hread

end

theorem fullContainer_of_cut {q : Pdu} (h : containerHdr q = none) : fullContainer q = .raised noWarn := by
  rw [fullContainer, h]

theorem fullContainer_of_no_data {q : Pdu} {h : ContainerHdr} (hh : containerHdr q = some h) (hd : containerData q h = none) :
    fullContainer q = .raised (lengthWarn h.length) := by
  simp only [fullContainer, hh, hd, containerWarn_eq]

theorem fullContainer_of_data {q : Pdu} {h : ContainerHdr} {d : List Byte} (hh : containerHdr q = some h)
    (hd : containerData q h = some d) : fullContainer q = .done (lengthWarn h.length) (.containerHdr h) (some d) := by
  simp only [fullContainer, hh, hd, containerWarn_eq]

/-- A row whose rule is the Container with its data has the four forms of `ContainerRow`. -/
theorem containerRow_of_decodesBy {c : CommandId} (h : ∀ q, DecodesBy c q (fullContainer q)) :
    ContainerRow (commandInstr c) c := by
  refine ⟨rowOf_commandInstr c, fun q => ⟨fun hcut => ?_, fun dst src ctype cflags length tid tail hids hq => ?_⟩⟩
  · exact (h q).emitsTruncated (fullContainer_of_cut (containerHdr_cut hcut))
  have hhdr := containerHdr_head hids hq
  have hdata := containerData_after_head hids hq
  refine ⟨fun hover => ?_, fun hle hshort => ?_, fun hle hwhole => ?_⟩
  · have hrule := fullContainer_of_no_data hhdr (containerData_of_over hover)
    rw [lengthWarn_of_over hover] at hrule
    exact (h q).emitsTruncated hrule
  · have hrule := fullContainer_of_no_data hhdr ((hdata hle).trans (if_neg (Nat.not_le.2 hshort)))
    rw [lengthWarn_of_le hle] at hrule
    exact (h q).emitsTruncated hrule
  · have hrule := fullContainer_of_data hhdr ((hdata hle).trans (if_pos hwhole))
    rw [lengthWarn_of_le hle] at hrule
    exact (h q).emitsOk hrule

/-- Settles O29: both rules are the Container with its data. -/
theorem containerRowsDecode : Obligations.ContainerRowsDecode :=
  ⟨containerRow_of_decodesBy (c := .txPacket) fun _ => rfl, containerRow_of_decodesBy (c := .rxPacket) fun _ => rfl⟩

/-! ### The rows that carry a LongPacket with its data -/

/-- The data behind the LongPacket header is there or cut (42 R110). -/
theorem longData_after_head {P : Params} {q : Pdu} {dst src : List Byte} {pad : Half} {ctype : Word} {length : Half}
    {tid : Byte} {tail : List Byte} (hids : IdsFit dst src)
    (hq : q.payload = longHeadBytes dst src pad ctype length tid ++ tail) (hle : length.toNat ≤ P.longDataMax) :
    longData P q ⟨dst, src, ctype, length, tid⟩ =
      if length.toNat ≤ tail.length then some (tail.take length.toNat) else none := by
  have hread := memRead_after length.toNat hq
  rw [longHeadBytes_length hids] at hread
  exact (longData_of_le hle).trans hread

theorem fullLongPacket_of_cut {P : Params} {q : Pdu} (h : longHdr q = none) : fullLongPacket P q = .raised noWarn := by
  rw [fullLongPacket, h]

theorem fullLongPacket_of_no_data {P : Params} {q : Pdu} {h : LongHdr} (hh : longHdr q = some h)
    (hd : longData P q h = none) : fullLongPacket P q = .raised (longWarn P h) := by
  simp only [fullLongPacket, hh, hd]

theorem fullLongPacket_of_data {P : Params} {q : Pdu} {h : LongHdr} {d : List Byte} (hh : longHdr q = some h)
    (hd : longData P q h = some d) : fullLongPacket P q = .done (longWarn P h) (.longHdr h) (some d) := by
  simp only [fullLongPacket, hh, hd]

/-- A row whose rule is the LongPacket with its data has the four forms of `LongPacketRow`. -/
theorem longPacketRow_of_decodesBy {c : CommandId} (h : ∀ q, DecodesBy c q (fullLongPacket Config.params q)) :
    LongPacketRow (commandInstr c) c := by
  refine ⟨rowOf_commandInstr c, fun q => ⟨fun hcut => ?_, fun dst src pad ctype length tid tail hids hq => ?_⟩⟩
  · exact (h q).emitsTruncated (fullLongPacket_of_cut (longHdr_cut hcut))
  have hhdr := longHdr_head hids hq
  have hdata := longData_after_head (P := Config.params) hids hq
  refine ⟨fun hover => ?_, fun hle hshort => ?_, fun hle hwhole => ?_⟩
  · have hrule := fullLongPacket_of_no_data hhdr (longData_of_over hover)
    rw [longWarn_of_over hover] at hrule
    exact (h q).emitsTruncated hrule
  · have hrule := fullLongPacket_of_no_data hhdr ((hdata hle).trans (if_neg (Nat.not_le.2 hshort)))
    rw [longWarn_of_le hle] at hrule
    exact (h q).emitsTruncated hrule
  · have hrule := fullLongPacket_of_data hhdr ((hdata hle).trans (if_pos hwhole))
    rw [longWarn_of_le hle] at hrule
    exact (h q).emitsOk hrule

/-- Settles O30: both rules are the LongPacket with its data, and the machine's LONG_DATA_MAX is the decided one. -/
theorem longPacketRowsDecode : Obligations.LongPacketRowsDecode :=
  ⟨longPacketRow_of_decodesBy (c := .longTxPacket) fun _ => rfl, longPacketRow_of_decodesBy (c := .longRxPacket) fun _ => rfl,
    rfl⟩

/-! ### The bus events -/

section
variable {q : Pdu} (warn : Byte → Warn) (field : ContainerHdr → Byte → Fields)

theorem busEvent_of_nil (h : q.payload = []) : busEvent q warn field = .done noWarn .empty none :=
  if_pos ((isRequest_iff q).2 h)

theorem busEvent_of_cut (hne : q.payload ≠ []) (h : containerHdr q = none) : busEvent q warn field = .raised noWarn := by
  simp [busEvent, isRequest_of_ne hne, h]

theorem busEvent_of_no_byte {h : ContainerHdr} (hne : q.payload ≠ []) (hh : containerHdr q = some h)
    (hb : containerDataByte q h 3 = none) : busEvent q warn field = .raised (lengthWarn h.length) := by
  simp [busEvent, isRequest_of_ne hne, hh, hb, containerWarn_eq]

theorem busEvent_of_byte {h : ContainerHdr} {b : Byte} (hne : q.payload ≠ []) (hh : containerHdr q = some h)
    (hb : containerDataByte q h 3 = some b) :
    busEvent q warn field = .done (lengthWarn h.length ||| warn b) (field h b) none := by
  simp [busEvent, isRequest_of_ne hne, hh, hb, containerWarn_eq]

end

/-- A row whose rule is a bus event has the four forms of `BusEventRow`. -/
theorem busEventRow_of_decodesBy {c : CommandId} {warn : Byte → Warn} {field : ContainerHdr → Byte → Fields}
    (h : ∀ q, DecodesBy c q (busEvent q warn field)) : BusEventRow (commandInstr c) c warn field := by
  refine ⟨rowOf_commandInstr c, fun q => ⟨fun hnil => ?_, fun hpos hcut => ?_,
    fun dst src ctype cflags length tid tail hids hq => ?_⟩⟩
  · exact (h q).emitsOk (busEvent_of_nil warn field hnil)
  · exact (h q).emitsTruncated (busEvent_of_cut warn field (List.ne_nil_of_length_pos hpos) (containerHdr_cut hcut))
  have hsize : q.payload.length = 44 + tail.length := by rw [hq, List.length_append, containerHeadBytes_length hids]
  have hne : q.payload ≠ [] := List.ne_nil_of_length_pos (by omega)
  have hhdr := containerHdr_head hids hq
  refine ⟨fun hshort => ?_, fun h4 d0 d1 d2 b rest htail => ?_⟩
  · have hbyte : containerDataByte q ⟨dst, src, ctype, cflags, length, tid⟩ 3 = none := by
      rcases Nat.lt_or_ge 3 length.toNat with hl | hl
      · exact (containerDataByte_of_lt hl).trans (memByte_of_ge (by rw [Pdu.size_eq]; omega))
      · exact containerDataByte_of_le hl
    exact (h q).emitsTruncated (busEvent_of_no_byte warn field hne hhdr hbyte)
  · subst htail
    have hbyte : containerDataByte q ⟨dst, src, ctype, cflags, length, tid⟩ 3 = some b :=
      (containerDataByte_of_lt h4).trans (memByte_after_containerHead (a := [d0, d1, d2]) hids hq)
    exact (h q).emitsOk (busEvent_of_byte warn field hne hhdr hbyte)

/-- Settles O31: the rule is a bus event with no warning of its own and the LEAVE_MASK bit as its flag. -/
theorem busChangeDecodes : Obligations.BusChangeDecodes := busEventRow_of_decodesBy (c := .busChange) fun _ => rfl

/-- Settles O32: the rule is a bus event whose byte has the BusState warning. -/
theorem busStateDecodes : Obligations.BusStateDecodes := by
  refine busEventRow_of_decodesBy (c := .busState) fun q => ?_
  rw [← funext busStateWarn_eq]
  rfl

end Sys2Proof.Machine
end

section
/-! PROOFS. The family of spec 42, its structures: what is encoded as a Container or a LongPacket decodes back (42 R116, R117),
and the pad of a LongPacket is in no OK record (42 R111). -/

namespace Sys2Proof.Machine

open Sys2Proof.Safety

/-! ### What a round trip rests on -/

/-- Without a trailer the record of a command's PDU is the one its rule makes of the payload (41 R81, R85; 43 R123). -/
theorem pduRecord_of_command {P : Params} (ha : P.crcAttach = .none) (c : CommandId) {len : Half} (hlen : 3 ≤ len.toNat)
    (payload : List Byte) :
    pduRecord P (pduBytes (P.codes.code c) len payload) = commandRecord P c ⟨P.codes.code c, len, payload⟩ := by
  have hpdu : pduOfBytes (pduBytes (P.codes.code c) len payload) = ⟨P.codes.code c, len, payload⟩ := pduOfBytes_bytes ⟨_, _, _⟩
  rw [pduRecord, le16_pduBytes, if_neg (Nat.not_lt.2 hlen), decodeRecord, ha, hpdu]
  simp only [decodeBody, lookup_code]

/-- A length within `n` bits stands in its field as it is. -/
theorem toNat_ofNat_of_le {n k m : Nat} (h : k ≤ m) (hm : m < 2 ^ n) : (BitVec.ofNat n k).toNat = k := by
  rw [BitVec.toNat_ofNat, Nat.mod_eq_of_lt (h.trans_lt hm)]

/-! ### The Container -/

/-- What the rule of a Container answers for a header and just its data (42 R105, R106). -/
theorem fullContainer_of_encoded {q : Pdu} {h : ContainerHdr} {data : List Byte} (hids : IdsFit h.dst h.src)
    (hlen : h.length.toNat = data.length) (hmax : data.length ≤ 127)
    (hq : q.payload = containerHeadBytes h.dst h.src h.ctype h.cflags h.length h.tid ++ data) :
    fullContainer q = .done noWarn (.containerHdr h) (some data) := by
  have hle : h.length.toNat ≤ 127 := hlen.trans_le hmax
  have hdata : containerData q h = some data := by
    rw [containerData_after_head hids hq hle, if_pos hlen.le, hlen, List.take_length]
  rw [fullContainer_of_data (containerHdr_head hids hq) hdata, lengthWarn_of_le hle]

/-- Settles O35: TX_PACKET's rule reads header and data back, since no length up to 127 is cut by its byte. -/
theorem containerRoundTrip : Obligations.ContainerRoundTrip := by
  intro P dst src ctype cflags tid data ha hids hmax
  have hlen : (BitVec.ofNat 8 data.length).toNat = data.length := toNat_ofNat_of_le hmax (by decide)
  have hpdu : (BitVec.ofNat 16 (47 + data.length)).toNat = 47 + data.length :=
    toNat_ofNat_of_le (Nat.add_le_add_left hmax 47) (by decide)
  rw [pduRecord_of_command ha .txPacket (by omega)]
  exact congrArg (decodedRecord .txPacket _)
    (fullContainer_of_encoded (h := ⟨dst, src, ctype, cflags, _, tid⟩) hids hlen hmax rfl)

/-! ### The LongPacket -/

/-- What the rule of a LongPacket answers, by the header and the bytes behind it: the pad is not in it (42 R109 to R111). -/
theorem fullLongPacket_after_head {P : Params} {q : Pdu} {h : LongHdr} {pad : Half} {tail : List Byte}
    (hids : IdsFit h.dst h.src) (hq : q.payload = longHeadBytes h.dst h.src pad h.ctype h.length h.tid ++ tail) :
    fullLongPacket P q =
      if h.length.toNat ≤ P.longDataMax ∧ h.length.toNat ≤ tail.length then
        .done noWarn (.longHdr h) (some (tail.take h.length.toNat))
      else .raised (longWarn P h) := by
  have hhdr : longHdr q = some h := longHdr_head hids hq
  rcases Nat.lt_or_ge P.longDataMax h.length.toNat with hover | hle
  · rw [fullLongPacket_of_no_data hhdr (longData_of_over hover), if_neg fun hfits => Nat.not_le.2 hover hfits.1]
  · have hdata : longData P q h = _ := longData_after_head hids hq hle
    rcases Nat.lt_or_ge tail.length h.length.toNat with hcut | hwhole
    · rw [fullLongPacket_of_no_data hhdr (hdata.trans (if_neg (Nat.not_le.2 hcut))),
        if_neg fun hfits => Nat.not_le.2 hcut hfits.2]
    · rw [fullLongPacket_of_data hhdr (hdata.trans (if_pos hwhole)), longWarn_of_le hle, if_pos ⟨hle, hwhole⟩]

/-- Settles O36: LONG_TX_PACKET's rule reads header and data back, since no length up to 8600 is cut by its two bytes. -/
theorem longPacketRoundTrip : Obligations.LongPacketRoundTrip := by
  intro P dst src pad ctype tid data ha hids hmax
  have hcap : data.length ≤ 8600 := by rcases P.longDataMax_cases with h | h <;> omega
  have hlen : (BitVec.ofNat 16 data.length).toNat = data.length := toNat_ofNat_of_le hcap (by decide)
  have hpdu : (BitVec.ofNat 16 (46 + data.length)).toNat = 46 + data.length :=
    toNat_ofNat_of_le (Nat.add_le_add_left hcap 46) (by decide)
  have hrule := fullLongPacket_after_head (P := P) (h := ⟨dst, src, ctype, BitVec.ofNat 16 data.length, tid⟩)
    (q := ⟨P.codes.code .longTxPacket, BitVec.ofNat 16 (46 + data.length), _⟩) (pad := pad) (tail := data) hids rfl
  rw [if_pos ⟨hlen.trans_le hmax, hlen.le⟩, hlen, List.take_length] at hrule
  rw [pduRecord_of_command ha .longTxPacket (by omega)]
  exact congrArg (decodedRecord .longTxPacket _) hrule

/-! ### The pad -/

/-- The pad in a header is what stands between the identifiers and the other fields (30 R54). -/
theorem longHeadBytes_append (dst src : List Byte) (pad : Half) (ctype : Word) (length : Half) (tid : Byte)
    (tail : List Byte) :
    longHeadBytes dst src pad ctype length tid ++ tail =
      dst ++ src ++ leBytes 2 pad.toNat ++ (leBytes 4 ctype.toNat ++ leBytes 2 length.toNat ++ tid :: tail) := by
  simp [longHeadBytes]

/-- What follows the pad in seven bytes or more is the rest of one header, whatever the pad (30 R54). -/
theorem exists_longHead_for_every_pad (dst src : List Byte) {rest : List Byte} (h : 7 ≤ rest.length) :
    ∃ ctype length tid tail, ∀ pad : Half,
      dst ++ src ++ leBytes 2 pad.toNat ++ rest = longHeadBytes dst src pad ctype length tid ++ tail := by
  -- `rest` behind any 36 bytes is a payload with a header
  obtain ⟨dst', src', pad', ctype, length, tid, tail, ⟨hdst', hsrc'⟩, heq⟩ :=
    exists_longHead (List.replicate 36 0 ++ rest) (by simp; omega)
  rw [longHeadBytes_append] at heq
  have hrest := List.append_inj_right heq (by simp [hdst', hsrc'])
  exact ⟨ctype, length, tid, tail, fun pad => by rw [longHeadBytes_append, hrest]⟩

/-- The rule of a LongPacket answers the same for every pad, be the header whole or cut (42 R111). -/
theorem fullLongPacket_ignores_pad (P : Params) {q q' : Pdu} {dst src rest : List Byte} {pad pad' : Half}
    (hids : IdsFit dst src) (hq : q.payload = dst ++ src ++ leBytes 2 pad.toNat ++ rest)
    (hq' : q'.payload = dst ++ src ++ leBytes 2 pad'.toNat ++ rest) : fullLongPacket P q' = fullLongPacket P q := by
  rcases Nat.lt_or_ge rest.length 7 with hcut | hwhole
  · have hnone : ∀ {p : Pdu} {x : Half}, p.payload = dst ++ src ++ leBytes 2 x.toNat ++ rest →
        fullLongPacket P p = .raised noWarn := fun hp =>
      fullLongPacket_of_cut (longHdr_cut (by simp [hp, hids.1, hids.2]; omega))
    rw [hnone hq, hnone hq']
  · obtain ⟨ctype, length, tid, tail, hhead⟩ := exists_longHead_for_every_pad dst src hwhole
    have hrule : ∀ {p : Pdu} {x : Half}, p.payload = dst ++ src ++ leBytes 2 x.toNat ++ rest → fullLongPacket P p = _ :=
      fun hp => fullLongPacket_after_head (h := ⟨dst, src, ctype, length, tid⟩) hids (hp.trans (hhead _))
    rw [hrule hq, hrule hq']

/-- An OK record is made of the rule's answer and of the PDU's header, not of its payload (41 R83). -/
theorem decodedRecord_of_ok {c : CommandId} {d : Decoded} {q q' : Pdu} (hcmd : q'.cmd = q.cmd) (hlen : q'.len = q.len)
    (h : (decodedRecord c q d).status = .ok) : decodedRecord c q' d = decodedRecord c q d := by
  cases d with
  | done w f n => simp only [decodedRecord, okRecord, hcmd, hlen]
  | raised w => cases h

/-- Settles O37: both rows' rule answers the same for either pad, and with OK the record is made of that answer. -/
theorem padIsIgnored : Obligations.PadIsIgnored := by
  intro P record cmd len dst src pad pad' rest hrow hids hok
  have hrule := fullLongPacket_ignores_pad P (q := ⟨cmd, len, _⟩) (q' := ⟨cmd, len, _⟩) (pad := pad) (pad' := pad')
    (rest := rest) hids rfl rfl
  rcases hrow with rfl | rfl
  · exact (congrArg (decodedRecord .longTxPacket _) hrule).trans (decodedRecord_of_ok rfl rfl hok)
  · exact (congrArg (decodedRecord .longRxPacket _) hrule).trans (decodedRecord_of_ok rfl rfl hok)

end Sys2Proof.Machine
end

section
/-! PROOFS. The family of spec 43, its CRC: the checker on bit vectors against the pseudocode on naturals, and the check
values (43 R122). -/

namespace Sys2Proof

open Sys2Proof.Safety

/-! ### Reflection -/

/-- The pseudocode's reflection as a sum: bit `i` lands at `w - 1 - i`. -/
theorem reflectNat_eq_sum (w v : Nat) :
    reflectNat w v = ((List.range w).map fun i => v / 2 ^ i % 2 * 2 ^ (w - 1 - i)).sum := by
  rw [List.sum_eq_foldl, List.foldl_map, reflectNat]

/-- The lowest bit becomes the highest, and the other bits are reflected below it. -/
theorem reflectNat_succ (w v : Nat) : reflectNat (w + 1) v = v % 2 * 2 ^ w + reflectNat w (v / 2) := by
  have hterm : ∀ i, v / 2 ^ i.succ % 2 * 2 ^ (w - i.succ) = v / 2 / 2 ^ i % 2 * 2 ^ (w - 1 - i) := fun i => by
    rw [Nat.pow_succ', Nat.div_div_eq_div_mul, show w - i.succ = w - 1 - i by omega]
  simp only [reflectNat_eq_sum, List.sum_range_succ', Nat.pow_zero, Nat.div_one, Nat.add_sub_cancel, Nat.sub_zero, hterm]

theorem reflectNat_lt (w v : Nat) : reflectNat w v < 2 ^ w := by
  induction w generalizing v with
  | zero => exact Nat.one_pos
  | succ w ih =>
    have hrest := ih (v / 2)
    rw [reflectNat_succ, Nat.pow_succ]
    rcases Nat.mod_two_eq_zero_or_one v with hbit | hbit <;> rw [hbit] <;> omega

/-- The model's loop shifts what it has and puts the reflected bits below it. -/
theorem reflectLoop_eq (w v acc : Nat) : reflectLoop w v acc = acc * 2 ^ w + reflectNat w v := by
  induction w generalizing v acc with
  | zero => simp [reflectLoop, reflectNat]
  | succ w ih => rw [reflectLoop, ih, reflectNat_succ]; ring

theorem toNat_reflect {w : Nat} (v : BitVec w) : (reflect v).toNat = reflectNat w v.toNat := by
  rw [reflect, reflectLoop_eq, Nat.zero_mul, Nat.zero_add, BitVec.toNat_ofNat, Nat.mod_eq_of_lt (reflectNat_lt w _)]

/-- The same under the switches CRC_REFIN and CRC_REFOUT. -/
theorem toNat_reflect_if {w : Nat} (r : Bool) (v : BitVec w) :
    (if r then reflect v else v).toNat = if r then reflectNat w v.toNat else v.toNat := by
  rw [apply_ite BitVec.toNat, toNat_reflect]

/-! ### The shift register -/

/-- One inner step; the bit that the pseudocode tests is the top one. -/
theorem toNat_crcShift {w : Nat} (poly reg : BitVec w) : (crcShift poly reg).toNat = crcStepNat w poly.toNat reg.toNat := by
  have htop : reg.msb = decide (reg.toNat / 2 ^ (w - 1) % 2 = 1) := by
    rw [BitVec.msb_eq_getLsbD_last, ← BitVec.testBit_toNat, Nat.testBit_eq_decide_div_mod_eq]
  have hshift : (reg <<< 1).toNat = 2 * reg.toNat % 2 ^ w := by
    rw [BitVec.toNat_shiftLeft, Nat.shiftLeft_eq, Nat.pow_one, Nat.mul_comm]
  have hxor : ((reg <<< 1) ^^^ poly).toNat = Nat.xor (2 * reg.toNat) poly.toNat % 2 ^ w := by
    rw [BitVec.toNat_xor, hshift]
    conv_lhs => rw [← Nat.mod_eq_of_lt poly.isLt]
    exact Nat.xor_mod_two_pow.symm
  simp only [crcShift, crcStepNat, htop, decide_eq_true_eq, apply_ite BitVec.toNat, hshift, hxor]

theorem toNat_crcShifts {w : Nat} (poly : BitVec w) (n : Nat) (reg : BitVec w) :
    (crcShifts poly n reg).toNat = (crcStepNat w poly.toNat)^[n] reg.toNat := by
  induction n generalizing reg with
  | zero => rfl
  | succ n ih => rw [crcShifts, ih, toNat_crcShift, Function.iterate_succ_apply]

/-- A byte shifted to the top of the register loses no bit. -/
theorem toNat_byte_shiftLeft {w : Nat} (hw : 8 ≤ w) (b : Byte) :
    ((b.setWidth w) <<< (w - 8)).toNat = b.toNat * 2 ^ (w - 8) := by
  have hpow : 2 ^ w = 2 ^ 8 * 2 ^ (w - 8) := by rw [← Nat.pow_add, Nat.add_sub_cancel' hw]
  have hbyte : b.toNat < 2 ^ w := b.isLt.trans_le (Nat.pow_le_pow_right (by decide) hw)
  have htop : b.toNat * 2 ^ (w - 8) < 2 ^ w := hpow ▸ Nat.mul_lt_mul_of_pos_right b.isLt (Nat.two_pow_pos _)
  rw [BitVec.toNat_shiftLeft, BitVec.toNat_setWidth, Nat.mod_eq_of_lt hbyte, Nat.shiftLeft_eq, Nat.mod_eq_of_lt htop]

/-! ### The whole checker -/

/-- The loop body of the pseudocode on naturals. -/
def crcByteNat (w poly : Nat) (refin : Bool) (reg : Nat) (b : Byte) : Nat :=
  (crcStepNat w poly)^[8] (Nat.xor reg ((if refin then reflectNat 8 b.toNat else b.toNat) * 2 ^ (w - 8)))

theorem crcNat_eq_foldl (w poly init xorout : Nat) (refin refout : Bool) (bs : List Byte) :
    crcNat w poly init xorout refin refout bs =
      Nat.xor (if refout then reflectNat w (bs.foldl (crcByteNat w poly refin) init)
        else bs.foldl (crcByteNat w poly refin) init) xorout := rfl

theorem toNat_crcByte (C : CrcParams) (reg : BitVec C.width.bits) (b : Byte) :
    (crcByte C reg b).toNat = crcByteNat C.width.bits C.poly.toNat C.refin reg.toNat b := by
  have hw : 8 ≤ C.width.bits := by rcases C.width.bits_cases with h | h | h <;> omega
  rw [crcByte, toNat_crcShifts, BitVec.toNat_xor, toNat_byte_shiftLeft hw, toNat_reflect_if]
  rfl

/-- The checker is the pseudocode, byte by byte (43 R122). -/
theorem toNat_crc (C : CrcParams) (bs : List Byte) :
    (crc C bs).toNat = crcNat C.width.bits C.poly.toNat C.init.toNat C.xorout.toNat C.refin C.refout bs := by
  have hreg := List.foldl_hom BitVec.toNat (l := bs) (init := C.init) fun reg b => (toNat_crcByte C reg b).symm
  rw [crc, BitVec.toNat_xor, toNat_reflect_if, ← hreg, crcNat_eq_foldl]
  rfl

/-- Settles O38: the refinement for every parameter set, and the three check values by running the checker. -/
theorem crcMatchesItsPseudocode : Obligations.CrcMatchesItsPseudocode :=
  ⟨toNat_crc, by decide +kernel, by decide +kernel, by decide +kernel⟩

end Sys2Proof
end

section
/-! PROOFS. The family of spec 43, the rest: the CRC stage of the decode (43 R123, R125), and the classes of identifiers and
bus addresses (43 R118 to R120). -/

namespace Sys2Proof.Machine

open Sys2Proof.Safety

/-! ### The CRC stage -/

theorem checkTrailer_of_short {C : CrcParams} {L : Nat} (p : List Byte) (h : L - 3 < C.width.bytes) :
    checkTrailer C p L = .short := if_pos h

/-- With room for the trailer, the check compares it with the CRC of the bytes before it (43 R125). -/
theorem checkTrailer_body_append {C : CrcParams} {body trailer : List Byte} (ht : trailer.length = C.width.bytes)
    (h3 : 3 ≤ body.length) :
    checkTrailer C (body ++ trailer) (body ++ trailer).length =
      if (crc C body).toNat ≠ leNat trailer then .mismatch else .good body := by
  have hcut : (body ++ trailer).length - C.width.bytes = body.length := by rw [List.length_append]; omega
  have hroom : ¬ (body ++ trailer).length - 3 < C.width.bytes := by rw [List.length_append]; omega
  have hslice : slice (body ++ trailer) body.length C.width.bytes = trailer := by
    rw [slice, List.drop_left, List.take_of_length_le ht.le]
  rw [checkTrailer, if_neg hroom, hcut, hslice, List.take_left]

/-- With a trailer the record of a PDU of legal length is the CRC stage's (41 R85). -/
theorem pduRecord_of_trailer {P : Params} {p : List Byte} (ha : P.crcAttach = .trailer) (h3 : 3 ≤ (le16 p 1).toNat) :
    pduRecord P p = crcStage P p := by
  rw [pduRecord, if_neg (Nat.not_lt.2 h3), decodeRecord, ha]

/-- Every row's record is made of some answer of its rule (41 R82, R83). -/
theorem exists_commandRecord_eq (P : Params) (c : CommandId) (q : Pdu) :
    ∃ d, commandRecord P c q = decodedRecord c q d := by
  cases c with
  | sync | ping | devicePacket | rawmode | register | unregister | queryAddress => exact ⟨.done noWarn .empty none, rfl⟩
  | _ => exact ⟨_, rfl⟩

/-- Whatever a PDU decodes to, `raw_length` is its declared length (41 R83). -/
theorem rawLength_decodeBody (P : Params) (q : Pdu) : (decodeBody P q).rawLength = q.len := by
  unfold decodeBody
  split
  · rfl
  · rename_i c _
    obtain ⟨d, hd⟩ := exists_commandRecord_eq P c q
    rw [hd]
    cases d <;> rfl

/-- Settles O39: the check's three answers, each with the record that the CRC stage makes of it. -/
theorem crcStageChecksTheTrailer : Obligations.CrcStageChecksTheTrailer := by
  intro P p ha h3 hlen
  rw [pduRecord_of_trailer ha h3, crcStage, ← hlen]
  refine ⟨fun hshort => ?_, ?_⟩
  · rw [checkTrailer_of_short p hshort]
    rfl
  · rintro body trailer rfl ht hbody
    rw [checkTrailer_body_append ht hbody]
    refine ⟨fun hne => ?_, fun heq => ?_⟩
    · rw [if_pos hne]
      rfl
    · rw [if_neg (not_not.2 heq)]
      exact ⟨rfl, (rawLength_decodeBody P _).trans (le16_append_left body trailer 1 (by omega)).symm⟩

/-- Settles O40: a legal CRC_ERROR record needs a trailer, and every record made without one is legal. -/
theorem noCrcWithoutATrailer : Obligations.NoCrcWithoutATrailer := by
  intro P p ha
  refine ⟨fun hcrc => ?_, fun h3 => ?_⟩
  · have hlegal := pduRecord_legal ha p
    rw [RecordLegal, hcrc] at hlegal
    obtain ⟨htrailer, -⟩ := hlegal
    exact absurd (ha.symm.trans htrailer) (by decide)
  · rw [pduRecord, if_neg (Nat.not_lt.2 h3), decodeRecord, ha]

/-! ### Identifiers and bus addresses -/

/-- `id_eq` is equality of byte sequences (43 R118). -/
theorem idEq_iff (a b : List Byte) : idEq a b = true ↔ a = b := by
  induction a generalizing b with
  | nil => cases b <;> simp [idEq]
  | cons x a ih =>
    cases b with
    | nil => simp [idEq]
    | cons y b =>
      have hstep : idEq (x :: a) (y :: b) = true ↔ x = y ∧ idEq a b = true := by
        simp [idEq, and_left_comm]
      rw [hstep, ih, List.cons.injEq]

/-- The class of an identifier, by equality with the sentinels of its length (43 R119). -/
theorem idClass_eq (a : List Byte) :
    idClass a =
      if a = List.replicate a.length 0x00 then .null
      else if a = List.replicate a.length 0xFF then .broadcast
      else .ordinary := by
  simp only [idClass, idEq_iff]

/-- Settles O41: the classes are the branches of `idClass`, and the sentinels of one nonzero length differ. -/
theorem identifierClasses : Obligations.IdentifierClasses := by
  refine ⟨idEq_iff, fun n a hn hlen => ?_⟩
  have hdiffer : List.replicate n (0x00 : Byte) ≠ List.replicate n 0xFF := by
    rw [Ne, List.replicate_inj]
    rintro ⟨-, hzero | hbyte⟩
    · omega
    · exact absurd hbyte (by decide)
  rw [idClass_eq, hlen]
  generalize List.replicate n (0x00 : Byte) = zeros at *
  generalize List.replicate n (0xFF : Byte) = ones at *
  by_cases hnull : a = zeros
  · subst hnull
    simp [hdiffer]
  · by_cases hbroadcast : a = ones
    · subst hbroadcast
      simp [hnull]
    · simp [hnull, hbroadcast]

/-- Settles O42: the model's branches compare bytes, the statement's compare their values. -/
theorem addressClasses : Obligations.AddressClasses := by
  intro a atDest
  by_cases hzero : a.toNat = 0
  · simp [addrClass, BitVec.toNat_eq, hzero]
  · simp [addrClass, BitVec.toNat_eq, hzero, Nat.one_le_iff_ne_zero]

end Sys2Proof.Machine
end

section
/-! PROOFS. The family of spec 60: which records and warnings the stages of a decode can give (60 R132, R137), and that only
a refused register access stops a step (60 R129, R134). -/

namespace Sys2Proof.Machine

open Sys2Proof.Safety

/-! ### What stops a step -/

theorem exists_pushByte_next (b : Byte) (s : State) : ∃ t, pushByte b s = .next t := by
  cases h : complete s.buf with
  | false => exact ⟨_, pushByte_of_ready b h⟩
  | true => exact ⟨_, pushByte_of_complete b h⟩

theorem exists_chunk_next (bs : List Byte) (s : State) : ∃ t, exec (.chunk bs) s = .next t := by
  cases bs with
  | nil => exact ⟨_, rfl⟩
  | cons b rest =>
    cases h : complete s.buf with
    | false => exact ⟨_, exec_chunk_of_ready b rest h⟩
    | true => exact ⟨_, exec_chunk_of_complete b rest h⟩

theorem exists_emit_next (s : State) : ∃ t, exec .emit s = .next t := by
  by_cases h : complete s.buf = true ∧ s.outq.length < Config.params.outDepth
  · exact ⟨_, exec_emit_of_room h.1 h.2⟩
  · exact ⟨_, exec_emit_of_disabled h⟩

theorem exists_pop_next (s : State) : ∃ t, exec .pop s = .next t := by
  obtain ⟨htake, hidle⟩ := popTakesTheHead s
  cases h : s.outq with
  | nil => exact ⟨_, hidle h⟩
  | cons r rest => exact ⟨_, htake r rest h⟩

/-- A write at an aligned offset completes, whatever the register (40 R78). -/
theorem exists_wr_next {off : Byte} (v : Word) (s : State) (ha : off.toNat % 4 = 0) :
    ∃ t, exec (.wr off v) s = .next t := by
  by_cases hctrl : off = 0x00
  · exact hctrl ▸ ⟨_, exec_wr_ctrl v s⟩
  by_cases hdata : off = 0x10
  · exact hdata ▸ exists_pushByte_next (v.setWidth 8) s
  · exact ⟨_, exec_wr_ignored v s ha hctrl hdata⟩

/-- Whatever host transaction is an instruction at all, the instruction gives a next state (60 R129). -/
theorem exists_next_of_decodeTransaction {op : Transaction} {i : Instr} (hd : decodeTransaction op = .ok i) (s : State) :
    ∃ t, exec i s = .next t := by
  cases op with
  | push b =>
    cases hd
    exact exists_pushByte_next b s
  | chunk bs =>
    cases hd
    exact exists_chunk_next bs s
  | pop =>
    cases hd
    exact exists_pop_next s
  | sreset | reset =>
    cases hd
    exact ⟨_, rfl⟩
  | read off bits =>
    obtain ⟨-, ha, rfl⟩ := checkAccess_eq_ok hd
    exact ⟨_, if_pos ha⟩
  | write off bits v =>
    obtain ⟨-, ha, rfl⟩ := checkAccess_eq_ok hd
    exact exists_wr_next v s ((alignedOffset_iff off).1 ha)

theorem hostTurn_next_or_error (s : State) :
    (∃ t, hostTurn s = .next t) ∨ ∃ op ops e, s.hostOps = op :: ops ∧ decodeTransaction op = .error e := by
  cases hops : s.hostOps with
  | nil => exact .inl ⟨s, hostTurn_of_nil hops⟩
  | cons op ops =>
    cases hd : decodeTransaction op with
    | error e => exact .inr ⟨op, ops, e, rfl, hd⟩
    | ok i =>
      rw [hostTurn_of_cons hops hd]
      split
      · exact .inl (exists_next_of_decodeTransaction hd _)
      · exact .inl ⟨s, rfl⟩

theorem portTurn_next_or_error (op : Transaction) (s : State) :
    (∃ t, portTurn op s = .next t) ∨ ∃ e, decodeTransaction op = .error e := by
  cases hd : decodeTransaction op with
  | error e => exact .inr ⟨e, rfl⟩
  | ok i =>
    rw [portTurn_of_ok hd]
    split
    · exact .inl (exists_next_of_decodeTransaction hd s)
    · exact .inl ⟨_, rfl⟩

/-- A step stops only at a transaction that is no instruction: the engine's turn, an EMIT, always gives a next state. -/
theorem step_next_or_error (s : State) :
    (∃ t, step s = .next t) ∨ ∃ op e, TakesNext s op ∧ decodeTransaction op = .error e := by
  cases hts : s.turns with
  | nil =>
    cases he : emitEnabled Config.params s with
    | true =>
      rw [step_of_enabled hts he, engineTurn_eq_emit]
      exact .inl (exists_emit_next s)
    | false =>
      rw [step_of_disabled hts he]
      refine (hostTurn_next_or_error s).imp_right ?_
      rintro ⟨op, ops, e, hops, hd⟩
      exact ⟨op, e, .inr ⟨ops, hops, .inr ⟨hts, he⟩⟩, hd⟩
  | cons x ts =>
    cases x with
    | engine =>
      rw [step_of_engine hts, engineTurn_eq_emit]
      exact .inl (exists_emit_next _)
    | host =>
      rw [step_of_host hts]
      refine (hostTurn_next_or_error _).imp_right ?_
      rintro ⟨op, ops, e, hops, hd⟩
      exact ⟨op, e, .inr ⟨ops, hops, .inl ⟨ts, hts⟩⟩, hd⟩
    | port op =>
      rw [step_of_port hts]
      refine (portTurn_next_or_error op _).imp_right ?_
      rintro ⟨e, hd⟩
      exact ⟨op, e, .inl ⟨ts, hts⟩, hd⟩

/-- The check of an access fails only where the access is not 32 bits wide or not aligned (10 R25). -/
theorem bad_of_checkAccess_error {off : Byte} {bits : Nat} {i : Instr} {e : TransactionReject}
    (h : checkAccess off bits i = .error e) : bits ≠ 32 ∨ off.toNat % 4 ≠ 0 := by
  by_contra hgood
  obtain ⟨rfl, halign⟩ : bits = 32 ∧ off.toNat % 4 = 0 := by simpa using hgood
  rw [checkAccess_of_aligned i ((alignedOffset_iff off).2 halign)] at h
  cases h

/-- Settles O10: what stops a step is no instruction, and among the transactions only register accesses are checked. -/
theorem onlyBadAccessesStopAStep : Obligations.OnlyBadAccessesStopAStep := by
  refine fun s => (step_next_or_error s).imp_right ?_
  rintro ⟨op, e, htakes, hd⟩
  cases op with
  | read off bits => exact ⟨off, bits, bad_of_checkAccess_error hd, .inl htakes⟩
  | write off bits v => exact ⟨off, bits, bad_of_checkAccess_error hd, .inr ⟨v, htakes⟩⟩
  | push _ | chunk _ | pop | sreset | reset => cases hd

/-! ### Which commands can give a TRUNCATED record -/

/-- The one-byte response never raises Truncated: a payload that is not the request form has its first byte (60 R132). -/
theorem oneByteResponse_returns (q : Pdu) (warn : Byte → Warn) (field : Byte → Fields) :
    ∃ w f, oneByteResponse q warn field = .done w f none := by
  cases hq : q.payload with
  | nil => exact ⟨_, _, oneByteResponse_of_nil warn field hq⟩
  | cons b rest => exact ⟨_, _, oneByteResponse_of_cons warn field hq⟩

/-- Nor does QUERY_DEVICES, whose loop reads whole entries only (41 R99). -/
theorem dsidEntries_ne_none (q : Pdu) : dsidEntries q ≠ none := by
  obtain ⟨ids, tail, hids, htail, hq⟩ := exists_entries q.payload
  rw [(dsidEntries_of_payload hids htail hq).1]
  exact Option.some_ne_none _

theorem oneByteRecord_status (c : CommandId) (q : Pdu) (warn : Byte → Warn) (field : Byte → Fields) :
    (decodedRecord c q (oneByteResponse q warn field)).status = .ok := by
  obtain ⟨w, f, hdone⟩ := oneByteResponse_returns q warn field
  rw [hdone]
  rfl

theorem queryDevicesRecord_status (q : Pdu) : (queryDevicesRecord q).status = .ok := by
  unfold queryDevicesRecord
  split
  · rfl
  · split
    · rfl
    · rename_i hnone
      exact absurd hnone (dsidEntries_ne_none q)

/-- Settles O22: the rules of the twelve other commands always return. -/
theorem onlyListedCommandsTruncate : Obligations.OnlyListedCommandsTruncate := by
  intro P c q htrunc
  have of_ok (hok : (commandRecord P c q).status = .ok) : False := by simp [hok] at htrunc
  cases c with
  | txPacket | rxPacket | longTxPacket | longRxPacket | queryDsuid | busChange | busState => decide
  | sync | ping | devicePacket | rawmode | register | unregister | queryAddress => exact (of_ok rfl).elim
  | apiRevision | packetfilter | restartBus | queryBusstate => exact (of_ok (oneByteRecord_status _ q _ _)).elim
  | queryDevices => exact (of_ok (queryDevicesRecord_status q)).elim

/-! ### The order of the stages -/

/-- The PDU that reaches the command stage: without a trailer the PDU's bytes, with one the body that its good trailer
covers (43 R123, R125). -/
def Reaches (P : Params) (p : List Byte) (q : Pdu) : Prop :=
  P.crcAttach = .none ∧ q = pduOfBytes p ∨
    P.crcAttach = .trailer ∧ ∃ body, checkTrailer P.crc p (le16 p 1).toNat = .good body ∧ q = pduOfBytes body

/-- The record of such a PDU is the command stage's (41 R85). -/
theorem pduRecord_of_reaches {P : Params} {p : List Byte} {q : Pdu} (h3 : 3 ≤ (le16 p 1).toNat) (hq : Reaches P p q) :
    pduRecord P p = decodeBody P q := by
  obtain ⟨ha, rfl⟩ | ⟨ha, body, hgood, rfl⟩ := hq
  · exact (noCrcWithoutATrailer P p ha).2 h3
  · rw [pduRecord_of_trailer ha h3, crcStage, hgood]

theorem pduRecord_of_corrupt {P : Params} {p : List Byte} (h : (le16 p 1).toNat < 3) :
    pduRecord P p = corruptRecord (byteAt p 0) (le16 p 1) := if_pos h

theorem decodeBody_of_code {P : Params} {c : CommandId} {q : Pdu} (h : P.codes.code c = q.cmd) :
    decodeBody P q = commandRecord P c q := by
  rw [decodeBody, ← h, lookup_code]

theorem decodeBody_of_no_code {P : Params} {q : Pdu} (h : ∀ c, P.codes.code c ≠ q.cmd) :
    decodeBody P q = unknownRecord q := by
  rw [decodeBody, (lookup_eq_none_iff P q.cmd).2 h]

/-- A command's rule returns or raises Truncated (41 R85). -/
theorem commandRecord_status_cases (P : Params) (c : CommandId) (q : Pdu) :
    (commandRecord P c q).status = .truncated ∨ (commandRecord P c q).status = .ok := by
  obtain ⟨d, hd⟩ := exists_commandRecord_eq P c q
  rw [hd]
  cases d with
  | done w f n => exact .inr rfl
  | raised w => exact .inl rfl

/-- The body that a good trailer covers keeps the length field (43 R125). -/
theorem le16_of_checkTrailer_good {C : CrcParams} {p body : List Byte} {L : Nat} (h : checkTrailer C p L = .good body)
    (h3 : 3 ≤ L) : le16 body 1 = le16 p 1 := by
  unfold checkTrailer at h
  dsimp only at h
  split_ifs at h with hshort
  cases h
  rcases Nat.le_total (L - C.width.bytes) p.length with hle | hge
  · exact le16_take p 1 _ (by omega) hle
  · rw [List.take_of_length_le hge]

/-- Every record EMIT can queue is legal, with a CRC trailer too (60 R137). -/
theorem pduRecord_legal_of_any_attach (P : Params) (p : List Byte) : RecordLegal P (pduRecord P p) := by
  cases ha : P.crcAttach with
  | none => exact pduRecord_legal ha p
  | trailer =>
    rcases Nat.lt_or_ge (le16 p 1).toNat 3 with hl | h3
    · rw [pduRecord_of_corrupt hl]
      exact ⟨hl, rfl, rfl, rfl, rfl⟩
    · rw [pduRecord_of_trailer ha h3, crcStage]
      split
      · exact ⟨h3, rfl, rfl, rfl, .inl rfl⟩
      · exact ⟨ha, h3, rfl, rfl, rfl, rfl⟩
      · rename_i body hgood
        have hlen : (pduOfBytes body).len = le16 p 1 := le16_of_checkTrailer_good hgood h3
        exact decodeBody_legal (hlen.symm ▸ h3)

theorem warnFits_cases {f : Fields} {w : Warn} (h : WarnFits f w) : w = noWarn ∨ w = invalidField ∨ w = partialEntry := by
  cases f with
  | busStateValue | busChange | busStateEvent =>
    obtain ⟨-, hw⟩ := h
    exact hw.elim (fun hw => .inr (.inl hw)) .inl
  | devices => exact h.elim (fun hw => .inr (.inr hw)) .inl
  | _ => exact .inl h

/-- A legal record warns with OK, or of INVALID_FIELD with TRUNCATED (60 R133, R137). -/
theorem warn_of_legal {P : Params} {r : Record} (h : RecordLegal P r) :
    r.warn = noWarn ∨ r.warn = invalidField ∧ (r.status = .ok ∨ r.status = .truncated) ∨
      r.warn = partialEntry ∧ r.status = .ok := by
  cases hs : r.status <;> rw [RecordLegal, hs] at h
  case ok =>
    obtain ⟨-, c, f, -, -, -, -, -, hw⟩ := h
    exact (warnFits_cases hw).imp_right (Or.imp (⟨·, .inl rfl⟩) (⟨·, rfl⟩))
  case truncated =>
    obtain ⟨-, -, -, -, hw⟩ := h
    exact hw.imp_right fun hw => .inl ⟨hw, .inr rfl⟩
  case unknown =>
    obtain ⟨-, -, -, -, -, hw⟩ := h
    exact .inl hw
  case corruptLength =>
    obtain ⟨-, -, -, -, hw⟩ := h
    exact .inl hw
  case crcError =>
    obtain ⟨-, -, -, -, -, hw⟩ := h
    exact .inl hw

/-- Settles O21: the stages in order, each with the record it makes, and the warnings of a legal record. -/
theorem statusFollowsPriority : Obligations.StatusFollowsPriority := by
  intro P p
  refine ⟨fun hl => ?_, fun h3 ha hshort => ?_, fun h3 ha hmismatch => ?_, fun q h3 hq => ⟨fun hno => ?_, fun c hc => ?_⟩,
    warn_of_legal (pduRecord_legal_of_any_attach P p)⟩
  · rw [pduRecord_of_corrupt hl]
    rfl
  · rw [pduRecord_of_trailer ha h3, crcStage, checkTrailer_of_short p hshort]
    rfl
  · rw [pduRecord_of_trailer ha h3, crcStage, hmismatch]
    rfl
  · rw [pduRecord_of_reaches h3 hq, decodeBody_of_no_code hno]
    rfl
  · rw [pduRecord_of_reaches h3 hq, decodeBody_of_code hc]
    exact commandRecord_status_cases P c q

end Sys2Proof.Machine
end

section
/-! PROOFS. The family of spec 70: the state that reset leaves (70 R144). -/

namespace Sys2Proof.Machine

open Sys2Proof.Safety

/-- Both levels read 0 after reset, and of the others only STATUS reads anything but 0. -/
theorem csrRead_reset_of_ne_status (P : Params) {off : Byte} (hstatus : off ≠ 0x04) : csrRead P State.reset off = 0 := by
  obtain ⟨-, -, -, -, -, hbuf, hout⟩ := levelRegistersAreLengths P State.reset
  by_cases hb : off = 0x08
  · rw [hb, hbuf]
  · by_cases ho : off = 0x0C
    · rw [ho, hout]
    · exact csrRead_of_other P State.reset hstatus hb ho

/-- Settles O12: STATUS reads IN_READY alone, and every other offset reads 0. -/
theorem resetStateIsAsStated : Obligations.ResetStateIsAsStated := by
  refine ⟨rfl, rfl, fun P off => ?_⟩
  split
  case isTrue hstatus =>
    obtain ⟨-, -, hreset⟩ := statusRegisterBits P State.reset
    rw [hstatus, hreset]
  case isFalse hstatus => exact csrRead_reset_of_ne_status P hstatus

/-- Settles O13: the empty buffer has its form, and neither the queue nor the host has a record. -/
theorem resetMeetsTheInvariant : Obligations.ResetMeetsTheInvariant :=
  ⟨bufferFits_reset, Nat.zero_le _, List.forall_mem_nil _, List.forall_mem_nil _⟩

end Sys2Proof.Machine
end
